-- ==== Sys2Proof/Word.lean ====
section
/-! DEFINITION. The widths of the core's values (the fixed shapes of R3 of spec/00_scope.md). -/

namespace Sys2Proof

/-- A memory byte, a general register, the carry byte, the timer (R10, R13, R19, R20). -/
abbrev Byte := BitVec 8

/-- An instruction word, the PC, the index register, a stack entry (R15, R17, R18, R45). -/
abbrev Word := BitVec 16

/-- A 4-bit field: a selector or a register index (R11, R46). -/
abbrev Nibble := BitVec 4

/-- The 12-bit immediate NNN (R48). -/
abbrev Imm12 := BitVec 12

end Sys2Proof
end

