-- ==== Sys2Proof/Config.lean ====
section
/-! DEFINITION. The configuration record of R3 (spec/00_scope.md): what an implementation fixes. The default
values of its fields stand in Sys2Proof/Machine/Binding.lean. -/

namespace Sys2Proof

/-- The parameters of R3. `FONT_LEN` is the length of `fontTable`, so the two cannot disagree. -/
structure Config where
  /-- `MEM_SIZE`, the number of bytes of memory. -/
  memSize : Nat
  /-- `FONT_BASE`, the first address of the font region. -/
  fontBase : Word
  /-- `FONT_TABLE`, the built-in glyph bytes. -/
  fontTable : List Byte
  /-- `PROG_BASE`, base of the program region and PC reset value. -/
  progBase : Word
  /-- `STACK_CAP`, the number of stack entries. -/
  stackCap : Nat
  /-- `CLS_SUB`, the clear-screen sub-selector. -/
  clsSub : Nibble
  /-- `ADD_SUB`, the add sub-selector. -/
  addSub : Nibble
  /-- `SETI_FAM`, the set-index family selector. -/
  setiFam : Nibble
  /-- `CALL_FAM`, the call family selector. -/
  callFam : Nibble
  /-- `TICK_PERIOD`, in the clock's own unit. Only `Run()` reads it (R106). -/
  tickPeriod : Nat
deriving DecidableEq, Repr

/-- `FONT_LEN` of R3. -/
def Config.fontLen (cfg : Config) : Nat := cfg.fontTable.length

/-- The value of `TICK_PERIOD`, which the spec leaves OPEN (D10 of spec/92_eei_decisions.md): a constant with no
body, so no proof can learn a value of it. Log entry 3. -/
opaque openTickPeriod : Nat

end Sys2Proof
end

