-- ==== Sys2Proof/Machine/Binding.lean ====
section
/-! DEFINITION. The default binding of the configuration: the values of R3's default column, which are decisions
D1 to D9 of spec/92_eei_decisions.md and item I3 of spec/93_implementation_defined.md. They stand in a file of
Machine/ so that a test that shows one of them wrong can be met by changing its value here. Log entries 1, 2, 3. -/

namespace Sys2Proof

/-- The 80-byte glyph set of I3: sixteen glyphs of five bytes, glyph g at offset 5g. -/
def standardFont : List Byte :=
  [0xF0#8, 0x90#8, 0x90#8, 0x90#8, 0xF0#8] ++ [0x20#8, 0x60#8, 0x20#8, 0x20#8, 0x70#8] ++
  [0xF0#8, 0x10#8, 0xF0#8, 0x80#8, 0xF0#8] ++ [0xF0#8, 0x10#8, 0xF0#8, 0x10#8, 0xF0#8] ++
  [0x90#8, 0x90#8, 0xF0#8, 0x10#8, 0x10#8] ++ [0xF0#8, 0x80#8, 0xF0#8, 0x10#8, 0xF0#8] ++
  [0xF0#8, 0x80#8, 0xF0#8, 0x90#8, 0xF0#8] ++ [0xF0#8, 0x10#8, 0x20#8, 0x40#8, 0x40#8] ++
  [0xF0#8, 0x90#8, 0xF0#8, 0x90#8, 0xF0#8] ++ [0xF0#8, 0x90#8, 0xF0#8, 0x10#8, 0xF0#8] ++
  [0xF0#8, 0x90#8, 0xF0#8, 0x90#8, 0x90#8] ++ [0xE0#8, 0x90#8, 0xE0#8, 0x90#8, 0xE0#8] ++
  [0xF0#8, 0x80#8, 0x80#8, 0x80#8, 0xF0#8] ++ [0xE0#8, 0x90#8, 0x90#8, 0x90#8, 0xE0#8] ++
  [0xF0#8, 0x80#8, 0xF0#8, 0x80#8, 0xF0#8] ++ [0xF0#8, 0x80#8, 0xF0#8, 0x80#8, 0x80#8]

/-- The default binding (R3). PRESUMED values, log entries 1 and 2; the tick period is open, log entry 3. -/
def Config.standard : Config where
  memSize := 4096
  fontBase := 0x000#16
  fontTable := standardFont
  progBase := 0x200#16
  stackCap := 16
  clsSub := 0x0#4
  addSub := 0x4#4
  setiFam := 0xA#4
  callFam := 0x2#4
  tickPeriod := openTickPeriod

end Sys2Proof
end

