-- ==== Sys2Proof/Syntax.lean ====
section
/-! DEFINITION. The instructions: one constructor per row of spec/opcode_table.json. -/

namespace Sys2Proof

/-- The four instruction classes of R50. Each operand has exactly the width of its field, so every term is an
instruction the hardware has: every 4-bit index names a register (R11) and every NNN is allowed (R65, R70). -/
inductive Instr where
  /-- CLS (R62). It has no operand: its bits 11..4 are ignored (R51). -/
  | cls
  /-- ADD Vx, Vy (R60). -/
  | add (x y : Nibble)
  /-- LD I, nnn (R65). -/
  | ldI (nnn : Imm12)
  /-- CALL nnn (R70). -/
  | call (nnn : Imm12)
deriving DecidableEq, Repr

end Sys2Proof
end

