-- ==== Sys2Proof/WellFormed.lean ====
section
/-! DEFINITION. What the model checks before it runs: the legality of a configuration (R4 of spec/00_scope.md).
The operands of an instruction need no check of their own, because their types have the width of their fields. -/

namespace Sys2Proof

/-- The sub-selectors are distinct (R4). -/
abbrev Config.SubSelectorsDistinct (cfg : Config) : Prop := cfg.clsSub ≠ cfg.addSub

/-- The family selectors are nonzero and distinct (R4). -/
abbrev Config.FamiliesDistinct (cfg : Config) : Prop :=
  cfg.setiFam ≠ 0#4 ∧ cfg.callFam ≠ 0#4 ∧ cfg.setiFam ≠ cfg.callFam

/-- The font region lies wholly below the program region (R4). -/
abbrev Config.FontBelowProgram (cfg : Config) : Prop :=
  cfg.fontBase.toNat + cfg.fontLen ≤ cfg.progBase.toNat

/-- At least one instruction fits, and addresses fit the 16-bit PC (R4); `2 < MEM_SIZE` is R3's own bound. -/
abbrev Config.MemoryFits (cfg : Config) : Prop :=
  cfg.progBase.toNat + 2 ≤ cfg.memSize ∧ 2 < cfg.memSize ∧ cfg.memSize ≤ 65536

/-- The stack has room for an entry (R4). -/
abbrev Config.StackHasRoom (cfg : Config) : Prop := 1 ≤ cfg.stackCap

/-- R4: "A configuration is legal only when all of the following hold". -/
abbrev Config.Legal (cfg : Config) : Prop :=
  cfg.SubSelectorsDistinct ∧ cfg.FamiliesDistinct ∧ cfg.FontBelowProgram ∧ cfg.MemoryFits ∧ cfg.StackHasRoom

end Sys2Proof
end

