-- ==== Sys2Proof/Decode.lean ====
section
/-! DEFINITION. Instruction words: their fields, the two-tier decoder, the encoder, and both over bytes
(spec/30_encoding.md, R34 of spec/20_memory.md). -/

namespace Sys2Proof

/-- `F = op[15:12]`, the family selector (R46). -/
def familyField (op : Word) : Nibble := op.extractLsb' 12 4

/-- `X = op[11:8]` (R46). -/
def xField (op : Word) : Nibble := op.extractLsb' 8 4

/-- `Y = op[7:4]` (R46). -/
def yField (op : Word) : Nibble := op.extractLsb' 4 4

/-- `S = op[3:0]`, the sub-selector (R46). -/
def subField (op : Word) : Nibble := op.extractLsb' 0 4

/-- `NNN = op[11:0]` (R46). -/
def nnnField (op : Word) : Imm12 := op.extractLsb' 0 12

/-- The result of decoding: one of R50's five, the four instructions or `INVALID(op)`. -/
inductive Decoded where
  | instr (i : Instr)
  | invalid (op : Word)
deriving DecidableEq, Repr

/-- Two-tier dispatch (R50): on the family, and for family zero on the sub-selector. -/
def decode (cfg : Config) (op : Word) : Decoded :=
  if familyField op = 0#4 then
    if subField op = cfg.addSub then .instr (.add (xField op) (yField op))
    else if subField op = cfg.clsSub then .instr .cls
    else .invalid op
  else if familyField op = cfg.setiFam then .instr (.ldI (nnnField op))
  else if familyField op = cfg.callFam then .instr (.call (nnnField op))
  else .invalid op

/-- Format Z of R47: four nibbles, the first in the high bits. -/
def fieldsWord (f x y z : Nibble) : Word := f ++ (x ++ (y ++ z))

/-- Format N of R47: the family in the high bits, then NNN. -/
def immWord (f : Nibble) (nnn : Imm12) : Word := f ++ nnn

/-- The word of an instruction (R47). For CLS the ignored bits are zero, as R55's assembler emits them. -/
def encode (cfg : Config) : Instr → Word
  | .cls => fieldsWord 0#4 0#4 0#4 cfg.clsSub
  | .add x y => fieldsWord 0#4 x y cfg.addSub
  | .ldI nnn => immWord cfg.setiFam nnn
  | .call nnn => immWord cfg.callFam nnn

/-- Big-endian concatenation: the byte at the lower address is bits 15..8 (R34). -/
def wordOfBytes (hi lo : Byte) : Word := hi ++ lo

/-- The byte of a word that stands at the lower address (R34). -/
def highByte (op : Word) : Byte := op.extractLsb' 8 8

/-- The byte of a word that stands at the higher address (R34). -/
def lowByte (op : Word) : Byte := op.extractLsb' 0 8

/-- The two bytes of a word as memory holds them (R34). -/
def bytesOfWord (op : Word) : List Byte := [highByte op, lowByte op]

/-- The bytes of an instruction as memory holds them (R45). -/
def encodeBytes (cfg : Config) (i : Instr) : List Byte := bytesOfWord (encode cfg i)

/-- Why a byte sequence yields no instruction: its first word is invalid (R54), or it is shorter than the two
bytes of a word (R45). -/
inductive DecodeError where
  | invalidOpcode (op : Word)
  | truncated
deriving DecidableEq, Repr

/-- Decode the instruction at the head of a byte sequence, total on any bytes; the rest is returned beside it. -/
def decodeBytes (cfg : Config) : List Byte → Except DecodeError (Instr × List Byte)
  | hi :: lo :: rest =>
    match decode cfg (wordOfBytes hi lo) with
    | .instr i => .ok (i, rest)
    | .invalid op => .error (.invalidOpcode op)
  | _ => .error .truncated

/-- The instruction word an opcode-table word `w` of `nbits` bits stands for: bits at and above `nbits` are zero,
and an instruction is one 16-bit word (R45). -/
def tableWord (nbits w : Nat) : Word := BitVec.ofNat 16 (w % 2 ^ nbits)

/-- The decoder's answer on an opcode-table word, laid out in memory order, under the default binding. -/
def decodeTableWord (nbits w : Nat) : Option Instr :=
  match decodeBytes Config.standard (bytesOfWord (tableWord nbits w)) with
  | .ok (i, _) => some i
  | .error _ => none

end Sys2Proof
end

