-- ==== Sys2Proof/Machine/State.lean ====
section
/-! DEFINITION. The state of the core (spec/10_state.md), the reasons a step stops, and the state after reset. -/

namespace Sys2Proof.Machine

/-- The five fatal conditions with their payloads (R75 of spec/60_exceptions.md). -/
inductive FatalError where
  /-- Code 1: a push onto a full stack (R76). -/
  | stackOverflow
  /-- Code 2: a pop of an empty stack (R77). No instruction raises it. -/
  | stackUnderflow
  /-- Code 3: the word matches no recognised family or sub-selector; carries the word (R78). -/
  | invalidOpcode (op : Word)
  /-- Code 4: a fetch with `PC + 1 >= MEM_SIZE`; carries the PC (R81). -/
  | fetchOutOfRange (pc : Word)
  /-- Code 5: a load that does not fit; carries the number of bytes (R82). It never halts the core. -/
  | loadOutOfRange (n : Nat)
deriving DecidableEq, Repr

/-- R21: the fatal-error status. -/
inductive Status where
  | running
  | halted (e : FatalError)
deriving DecidableEq, Repr

/-- R22: the run loop's last execution timestamp. A time is a count in the clock's own unit (log entry 11). -/
inductive LastTick where
  | never
  | sampled (time : Nat)
deriving DecidableEq, Repr

/-- What leaves the core while it runs: the clear signal to the display (R89, R94). -/
inductive Event where
  | clearScreen
deriving DecidableEq, Repr

/-- Memory as (address, byte) pairs: the bytes that differ from the contents after reset, addresses rising. Its
operations and its canonical form stand in Sys2Proof/Machine/Memory.lean. -/
abbrev Memory := List Host.Cell

/-- The state record at the head of spec/10_state.md, and the trace of R94. -/
structure State where
  /-- V0..VF (R10). -/
  v : Vector Byte 16
  /-- The carry byte C (R13). -/
  carry : Byte
  /-- The program counter (R15). -/
  pc : Word
  /-- The index register I (R17). -/
  index : Word
  /-- The call stack, top = last element (R18). -/
  stack : List Word
  /-- The countdown timer DT (R19). -/
  dt : Byte
  /-- The memory M (R20). -/
  mem : Memory
  /-- Running or halted (R21). -/
  status : Status
  /-- The run loop's timestamp (R22). -/
  lastTick : LastTick
  /-- The ClearScreen events so far, oldest first (R94). Log entry 5. -/
  trace : List Event
deriving DecidableEq, Repr

/-- Why a step stops. -/
inductive Fault where
  /-- Raised by `step` on a halted core: "While status = Halted(e), Tick() has no step" (R85). Safe: the model
  stops where the spec gives no step. It carries the error that halted the core, which `Run()` returns. -/
  | halted (e : FatalError)
deriving DecidableEq, Repr

/-- What the model gives no meaning to. -/
inductive Refusal where
  /-- Raised by `exec` for an instruction that has no meaning yet; no arm does. Safe. -/
  | notModelled (mnemonic : String)
  /-- Raised by the host operations under a configuration that R4 calls illegal ("A model refuses an illegal
  configuration"); `step` never raises it, since the default binding is legal. Safe. -/
  | illegalConfig
  /-- Raised by a host call on an instance on which `Run()` is executing: host operations happen only while
  "`Run()` is not executing" (R101); `step` never raises it. Safe. -/
  | runExecuting
  /-- Raised by every host call but Reset on an instance that has never been reset (R97); `step` never raises
  it, since every State is the state of an instance that has been reset. Safe. -/
  | neverReset
deriving DecidableEq, Repr

/-- The state after `Reset()` under a configuration: every element at its value of R25 (and R95). The memory lists
nothing, because an unlisted address reads as its contents after reset. -/
def State.resetWith (cfg : Config) : State where
  v := Vector.replicate 16 0x00#8
  carry := 0x00#8
  pc := cfg.progBase
  index := 0x0000#16
  stack := []
  dt := 0x00#8
  mem := []
  status := .running
  lastTick := .never
  trace := []

/-- The state after `Reset()` under the default binding. -/
def State.reset : State := State.resetWith Config.standard

end Sys2Proof.Machine
end

