-- ==== Sys2Proof/Machine/Memory.lean ====
section
/-! DEFINITION. The byte memory M (R20, R30 to R32, R42): what an address reads as, the write that Reset and
LoadProgram are made of, and the canonical form. -/

namespace Sys2Proof.Machine

/-- What memory holds right after `Reset()`: the font table in the font region, 0x00 at every other address
(R25, R95). This is what an unlisted address reads as. Log entry 14. -/
def resetByte (cfg : Config) (a : Nat) : Byte :=
  if cfg.fontBase.toNat ≤ a then cfg.fontTable.getD (a - cfg.fontBase.toNat) 0x00#8 else 0x00#8

/-- `M[a]` for an address of memory. The caller checks the bound. -/
def Memory.read (cfg : Config) : Memory → Nat → Byte
  | [], a => resetByte cfg a
  | (k, b) :: rest, a => if a = k then b else Memory.read cfg rest a

/-- List a byte at the head, unless the address reads as that byte unlisted. -/
def Memory.put (cfg : Config) (a : Nat) (b : Byte) (m : Memory) : Memory :=
  if b = resetByte cfg a then m else (a, b) :: m

/-- `M[a] <- b`, keeping the canonical form. The caller checks the bound. -/
def Memory.write (cfg : Config) : Memory → Nat → Byte → Memory
  | [], a, b => Memory.put cfg a b []
  | (k, c) :: rest, a, b =>
    if a < k then Memory.put cfg a b ((k, c) :: rest)
    else if a = k then Memory.put cfg a b rest
    else (k, c) :: Memory.write cfg rest a b

/-- Write a byte sequence at rising addresses from `a` (the loop of R98). -/
def Memory.writeBytes (cfg : Config) : Memory → Nat → List Byte → Memory
  | m, _, [] => m
  | m, a, b :: bs => Memory.writeBytes cfg (Memory.write cfg m a b) (a + 1) bs

/-- The canonical form: addresses strictly rising, each inside memory (R20), no entry equal to what its address
reads as unlisted. -/
abbrev Memory.wf (cfg : Config) (m : Memory) : Prop :=
  m.Pairwise (fun c d => c.1 < d.1) ∧ ∀ c ∈ m, c.1 < cfg.memSize ∧ c.2 ≠ resetByte cfg c.1

/-- One byte of the core's memory: `M[a]`. -/
def State.byteAt (cfg : Config) (s : State) (a : Nat) : Byte := Memory.read cfg s.mem a

end Sys2Proof.Machine
end

