-- ==== Sys2Proof/Machine/Operands.lean ====
section
/-! DEFINITION. Operand forms: a register named by a 4-bit field (R11, R49) and the zero-extended 12-bit
immediate (R48). -/

namespace Sys2Proof.Machine

/-- `V[x]`: every 4-bit index names a register (R11). -/
def readV (x : Nibble) (s : State) : Byte := s.v[x.toNat]'(x.isLt)

/-- `V[x] <- b` (R7). -/
def writeV (x : Nibble) (b : Byte) (s : State) : State := { s with v := s.v.set x.toNat b x.isLt }

/-- `zext_16(NNN)`: not scaled, not shifted (R48). -/
def zextImm (nnn : Imm12) : Word := nnn.setWidth 16

/-- `I <- w` (R7). -/
def writeI (w : Word) (s : State) : State := { s with index := w }

/-- `pc <- target` (R7). -/
def writePc (w : Word) (s : State) : State := { s with pc := w }

end Sys2Proof.Machine
end

