-- ==== Sys2Proof/Machine/Ops.lean ====
section
/-! DEFINITION. The shared operations: raising a fatal error, the advance signal and the PC update, the stack
primitives, the timer, fetch and the front end of a tick. -/

namespace Sys2Proof.Machine

/-- `status <- Halted(e)`: what raising a fatal error does to the state (R80). Every write made earlier in the tick
stays and nothing else changes. There is no vector, saved PC or handler (R79), and nothing returns from a fatal
error: only `Reset()` sets the status to Running again (R85). -/
def raiseFatal (e : FatalError) (s : State) : State := { s with status := .halted e }

/-- The numeric code of a fatal error (R75, log entry 22). -/
def FatalError.code : FatalError → Nat
  | .stackOverflow => 1
  | .stackUnderflow => 2
  | .invalidOpcode _ => 3
  | .fetchOutOfRange _ => 4
  | .loadOutOfRange _ => 5

/-- How executing an instruction ends (R7): it returns the advance signal (R23), or it raises a fatal error. The
state is the one with the writes made so far. -/
inductive Execution where
  | returned (advance : Bool) (s : State)
  | raised (e : FatalError) (s : State)
deriving DecidableEq, Repr

/-- `IncrementPC()`: `PC <- (PC + 2) mod 2^16` (R104, log entry 9). -/
def incrementPc (s : State) : State := writePc (s.pc + 2#16) s

/-- The end of a tick: the PC advances if and only if execution returned `true` (R16, R104); a raise halts the
core (R80). -/
def complete : Execution → State
  | .returned true s => incrementPc s
  | .returned false s => s
  | .raised e s => raiseFatal e s

/-- `Push(v)` (R68). -/
def push (cfg : Config) (w : Word) (s : State) : Except FatalError State :=
  if s.stack.length = cfg.stackCap then .error .stackOverflow else .ok { s with stack := s.stack ++ [w] }

/-- `Pop()` (R69). No instruction calls it (R71); the spec has a model provide it. -/
def pop (s : State) : Except FatalError (Word × State) :=
  match s.stack.getLast? with
  | none => .error .stackUnderflow
  | some w => .ok (w, { s with stack := s.stack.dropLast })

/-- `Display.clear()`, recorded as one ClearScreen event (R62, R89, R94). Log entry 6. -/
def displayClear (s : State) : State := { s with trace := s.trace ++ [.clearScreen] }

/-- The timer's decrement at the start of a tick, floored at zero (R88). -/
def decrementTimer (s : State) : State := { s with dt := if s.dt = 0#8 then s.dt else s.dt - 1#8 }

/-- `FetchInstruction()` (R35): the bound is checked in unbounded arithmetic (R36), and no state is written. -/
def fetch (cfg : Config) (s : State) : Except FatalError Word :=
  if cfg.memSize ≤ s.pc.toNat + 1 then .error (.fetchOutOfRange s.pc)
  else .ok (wordOfBytes (s.byteAt cfg s.pc.toNat) (s.byteAt cfg (s.pc.toNat + 1)))

/-- Fetch and decode in the order of R103 and R84; executing `INVALID(op)` raises `InvalidOpcode(op)` (R54). -/
def fetchDecode (cfg : Config) (s : State) : Except FatalError Instr :=
  match fetch cfg s with
  | .error e => .error e
  | .ok op =>
    match decode cfg op with
    | .instr i => .ok i
    | .invalid w => .error (.invalidOpcode w)

end Sys2Proof.Machine
end

