-- ==== Sys2Proof/Machine/CallFamily.lean ====
section
/-! DEFINITION. The call family: CALL (spec/42_call_and_stack.md). -/

namespace Sys2Proof.Machine

/-- The pseudocode of CALL nnn (R70): push the CALL's own address, then jump. A full stack raises before the PC
is written, so S and PC stay. The target is not checked. -/
def callBody (cfg : Config) (nnn : Imm12) (s : State) : Execution :=
  match push cfg s.pc s with
  | .error e => .raised e s
  | .ok s' => .returned false (writePc (zextImm nnn) s')

/-- CALL nnn (R70), through the end of the tick, under the default binding. -/
def execCall (nnn : Imm12) (s : State) : Host.Outcome State Fault Refusal :=
  .next (complete (callBody Config.standard nnn s))

end Sys2Proof.Machine
end

