-- ==== Sys2Proof/Machine/Flags.lean ====
section
/-! DEFINITION. The carry byte, the only flag (R13, R14, R60). -/

namespace Sys2Proof.Machine

/-- The carry of an 8-bit addition, as R60 computes it: 0x01 when `a > 255 - b`, else 0x00. -/
def carryOfAdd (a b : Byte) : Byte := if a.toNat > 255 - b.toNat then 0x01#8 else 0x00#8

/-- `C <- c` (R7). -/
def writeC (c : Byte) (s : State) : State := { s with carry := c }

end Sys2Proof.Machine
end

