-- ==== Sys2Proof/Machine/Family0.lean ====
section
/-! DEFINITION. Family 0: ADD and CLS (spec/40_family0.md). -/

namespace Sys2Proof.Machine

/-- The pseudocode of ADD Vx, Vy (R60): both operands are read before the carry and the sum are written. -/
def addBody (x y : Nibble) (s : State) : Execution :=
  let a := readV x s
  let b := readV y s
  .returned true (writeV x (BitVec.ofNat 8 (a.toNat + b.toNat)) (writeC (carryOfAdd a b) s))

/-- The pseudocode of CLS (R62). -/
def clsBody (s : State) : Execution := .returned true (displayClear s)

/-- ADD Vx, Vy (R60), through the end of the tick. -/
def execAdd (x y : Nibble) (s : State) : Host.Outcome State Fault Refusal := .next (complete (addBody x y s))

/-- CLS (R62), through the end of the tick. -/
def execCls (s : State) : Host.Outcome State Fault Refusal := .next (complete (clsBody s))

end Sys2Proof.Machine
end

