-- ==== Sys2Proof/Machine/SetIndex.lean ====
section
/-! DEFINITION. The set-index family: LD I (spec/41_set_index.md). -/

namespace Sys2Proof.Machine

/-- The pseudocode of LD I, nnn (R65). The value is not checked against the memory size. -/
def ldIBody (nnn : Imm12) (s : State) : Execution := .returned true (writeI (zextImm nnn) s)

/-- LD I, nnn (R65), through the end of the tick. -/
def execLdI (nnn : Imm12) (s : State) : Host.Outcome State Fault Refusal := .next (complete (ldIBody nnn s))

end Sys2Proof.Machine
end

