-- ==== Sys2Proof/Machine/Dispatch.lean ====
section
/-! DEFINITION. One arm per instruction. -/

namespace Sys2Proof.Machine

def exec (i : Instr) (s : State) : Host.Outcome State Fault Refusal :=
  match i with
  | .cls => Sys2Proof.Machine.execCls s
  | .add x y => Sys2Proof.Machine.execAdd x y s
  | .ldI nnn => Sys2Proof.Machine.execLdI nnn s
  | .call nnn => Sys2Proof.Machine.execCall nnn s

end Sys2Proof.Machine
end

