-- ==== Sys2Proof/Machine/Step.lean ====
section
/-! DEFINITION. One step is one `Tick()` (R103, R107 of spec/70_reset_and_hazards.md), under the default binding. -/

namespace Sys2Proof.Machine

/-- `Tick()` (R103): timer, fetch, decode, execute, PC update. A fatal error raised on the way gives the halted
state R80 describes (log entry 4); a halted core has no tick (R85). -/
def step (s : State) : Host.Outcome State Fault Refusal :=
  match s.status with
  | .halted e => .fault (.halted e)
  | .running =>
    match fetchDecode Config.standard (decrementTimer s) with
    | .error e => .next (raiseFatal e (decrementTimer s))
    | .ok i => exec i (decrementTimer s)

/-- The state with an opcode-table word stored where the next tick fetches: at the PC, high byte first (R34). It
stands for a `LoadProgram` (log entry 15). Where the PC cannot be fetched from (R36) nothing is stored. -/
def State.withFetchWord (s : State) (nbits w : Nat) : State :=
  if Config.standard.memSize ≤ s.pc.toNat + 1 then s
  else { s with mem := Memory.writeBytes Config.standard s.mem s.pc.toNat (bytesOfWord (tableWord nbits w)) }

end Sys2Proof.Machine
end

