-- ==== Sys2Proof/Machine/HostOps.lean ====
section
/-! DEFINITION. The block's operations under any configuration (R9 of spec/00_scope.md): Tick, LoadProgram, Run,
Reset on an instance, the host's reads and launches, and what a run shows. `step` of Machine/Step.lean is `Tick()`
under the default binding. The operations on a State are the calls themselves; those on a CoreInstance also say when
the host may make them (R97, R101). Log entries 8, 11, 12, 13, 16, 17, 20. -/

namespace Sys2Proof.Machine

/-- `Execute(instr)` (R50, R103) under a configuration. -/
def execute (cfg : Config) : Instr → State → Execution
  | .cls, s => clsBody s
  | .add x y, s => addBody x y s
  | .ldI nnn, s => ldIBody nnn s
  | .call nnn, s => callBody cfg nnn s

/-- The body of `Tick()` (R103). It is defined for a running core. -/
def runningTick (cfg : Config) (s : State) : State :=
  match fetchDecode cfg (decrementTimer s) with
  | .error e => raiseFatal e (decrementTimer s)
  | .ok i => complete (execute cfg i (decrementTimer s))

/-- `Tick()` under a configuration: refused where R4 makes the configuration illegal, no step where the core is
halted (R85). -/
def tick (cfg : Config) (s : State) : Host.Outcome State Fault Refusal :=
  if cfg.Legal then
    match s.status with
    | .halted e => .fault (.halted e)
    | .running => .next (runningTick cfg s)
  else .refused .illegalConfig

/-- `n` ticks, stopping at the first fatal error: "Run() is the sequence Tick(); Tick(); ..." (R107). -/
def ticks (cfg : Config) : Nat → State → State
  | 0, s => s
  | n + 1, s =>
    match s.status with
    | .halted _ => s
    | .running => ticks cfg n (runningTick cfg s)

/-- The fatal error a core has halted with, which `Tick()` and `Run()` return to the host (R79). -/
def State.error (s : State) : Option FatalError :=
  match s.status with
  | .halted e => some e
  | .running => none

/-- What a host operation hands back: the state it leaves and the error it returns, if any. -/
structure OpResult where
  state : State
  error : Option FatalError
deriving DecidableEq, Repr

/-- `LoadProgram(bytes)` (R98): bytes that do not fit are refused with nothing written (R82). -/
def loadProgram (cfg : Config) (bytes : List Byte) (s : State) : OpResult :=
  if cfg.memSize < cfg.progBase.toNat + bytes.length then ⟨s, some (.loadOutOfRange bytes.length)⟩
  else ⟨{ s with mem := Memory.writeBytes cfg s.mem cfg.progBase.toNat bytes }, none⟩

/-- Whether the run loop ticks at a clock sample: at the first poll after Reset, else when a tick period has passed
since the last tick (R106). -/
def State.tickDue (cfg : Config) (now : Nat) (s : State) : Bool :=
  match s.lastTick with
  | .never => true
  | .sampled t => decide (t + cfg.tickPeriod ≤ now)

/-- `lastTick <- l` (R106). -/
def State.stamp (l : LastTick) (s : State) : State := { s with lastTick := l }

/-- One iteration of the run loop at the clock sample `now` (R106): record the sampled time and tick, or poll
again. -/
def pollOnce (cfg : Config) (now : Nat) (s : State) : State :=
  if s.tickDue cfg now then runningTick cfg (s.stamp (.sampled now)) else s

/-- `Run()` over the clock samples it has drawn so far (R106). A halted core returns its error at once (R85). -/
def run (cfg : Config) : List Nat → State → OpResult
  | [], s => ⟨s, s.error⟩
  | now :: rest, s =>
    match s.status with
    | .halted e => ⟨s, some e⟩
    | .running => run cfg rest (pollOnce cfg now s)

/-- One core instance, as the host sees it between its calls. Its state before the first `Reset()` is unspecified,
so it has none (R97). While `Run()` executes, the host has no other call in progress (R101). Each instance owns its
whole state and shares nothing (R91). Log entries 13 and 20. -/
inductive CoreInstance where
  /-- Before the first `Reset()` (R97). -/
  | neverReset
  /-- No `Run()` is executing: the host may call any operation (R101). -/
  | idle (s : State)
  /-- `Run()` is executing: it has not returned an error, and only the clock drives it (R101, R106). -/
  | inRun (s : State)
deriving DecidableEq, Repr

/-- The state of an instance, once it has one. -/
def CoreInstance.state : CoreInstance → Option State
  | .neverReset => none
  | .idle s => some s
  | .inRun s => some s

/-- Whether `Run()` is executing on the instance (R101). -/
def CoreInstance.runExecuting : CoreInstance → Bool
  | .neverReset => false
  | .idle _ => false
  | .inRun _ => true

/-- What a host call leaves: the instance after it, and the error it returns, if any. -/
structure CallResult where
  after : CoreInstance
  error : Option FatalError
deriving DecidableEq, Repr

/-- `Reset()` (R95, R96): allowed in any state, but not while `Run()` executes (R101); refused under an illegal
configuration (R4). -/
def CoreInstance.reset (cfg : Config) (c : CoreInstance) : Host.Outcome CoreInstance Fault Refusal :=
  if c.runExecuting then .refused .runExecuting
  else if cfg.Legal then .next (.idle (State.resetWith cfg))
  else .refused .illegalConfig

/-- A host call on an instance's state: refused before the first Reset (R97), while `Run()` executes (R101) and
under an illegal configuration (R4). -/
def CoreInstance.withIdle {α : Type} (cfg : Config) (f : State → Host.Outcome α Fault Refusal) :
    CoreInstance → Host.Outcome α Fault Refusal
  | .neverReset => .refused .neverReset
  | .inRun _ => .refused .runExecuting
  | .idle s => if cfg.Legal then f s else .refused .illegalConfig

/-- `Tick()` on an instance: the error of a tick that raises is returned to the host (R79). -/
def CoreInstance.tick (cfg : Config) (c : CoreInstance) : Host.Outcome CallResult Fault Refusal :=
  c.withIdle cfg fun s =>
    match Machine.tick cfg s with
    | .next t => .next ⟨.idle t, t.error⟩
    | .fault r => .fault r
    | .refused r => .refused r

/-- `LoadProgram(bytes)` on an instance. -/
def CoreInstance.loadProgram (cfg : Config) (bytes : List Byte) (c : CoreInstance) :
    Host.Outcome CallResult Fault Refusal :=
  c.withIdle cfg fun s =>
    .next ⟨.idle (Machine.loadProgram cfg bytes s).state, (Machine.loadProgram cfg bytes s).error⟩

/-- Where `Run()` stands when its loop has reached a state: it has returned the error the core halted with (R79,
R85), or it is executing still (R106). -/
def runReached (s : State) : CallResult :=
  match s.error with
  | some e => ⟨.idle s, some e⟩
  | none => ⟨.inRun s, none⟩

/-- The host calls `Run()`, and the loop draws these clock samples. -/
def CoreInstance.run (cfg : Config) (samples : List Nat) (c : CoreInstance) : Host.Outcome CallResult Fault Refusal :=
  c.withIdle cfg fun s => .next (runReached (Machine.run cfg samples s).state)

/-- An executing `Run()` draws one more clock sample (R106). The clock does nothing to an instance on which no
`Run()` executes. -/
def CoreInstance.poll (cfg : Config) (now : Nat) : CoreInstance → CallResult
  | .inRun s => runReached (Machine.run cfg [now] s).state
  | .idle s => ⟨.idle s, none⟩
  | .neverReset => ⟨.neverReset, none⟩

/-- Load byte sequences one after another; none if one of them does not fit. -/
def loadAll (cfg : Config) : List (List Byte) → State → Option State
  | [], s => some s
  | bytes :: rest, s =>
    match (loadProgram cfg bytes s).error with
    | some _ => none
    | none => loadAll cfg rest (loadProgram cfg bytes s).state

/-- The canonical launch of R28 (a) and R100: Reset, then LoadProgram calls. DESIGN CHOICE (log entry 8): a launch
with a load that does not fit is no launch, as D13 has it ("such a launch has no meaning in the model"), though by
R82 such a call returns its error and leaves a state the host could go on from. -/
def canonicalLaunch (cfg : Config) (loads : List (List Byte)) : Option State :=
  loadAll cfg loads (State.resetWith cfg)

/-- What a test launch presets (R28 (b)). -/
structure Preset where
  v : Vector Byte 16
  carry : Byte
  index : Word
  pc : Word
  stack : List Word
  dt : Byte
deriving DecidableEq, Repr

/-- The two limits of R28 (b). -/
abbrev Preset.Allowed (cfg : Config) (p : Preset) : Prop :=
  p.stack.length ≤ cfg.stackCap ∧ (p.carry = 0x00#8 ∨ p.carry = 0x01#8)

/-- The test launch of R28 (b); none for a preset outside the limits. R28 (b) and D22 speak of a state after Reset and
LoadProgram. DESIGN CHOICE (log entry 16): the function takes any state, one that has ticked or halted too, and keeps
the status, the timestamp and the trace of that state. -/
def testLaunch (cfg : Config) (p : Preset) (s : State) : Option State :=
  if p.Allowed cfg then
    some { s with v := p.v, carry := p.carry, index := p.index, pc := p.pc, stack := p.stack, dt := p.dt }
  else none

/-- What the host can read besides memory bytes: every state element except `lastTick` (R27). -/
structure HostView where
  v : Vector Byte 16
  carry : Byte
  pc : Word
  index : Word
  stack : List Word
  dt : Byte
  status : Status
deriving DecidableEq, Repr

/-- The host's read of the registers (R27). -/
def hostView (s : State) : HostView := ⟨s.v, s.carry, s.pc, s.index, s.stack, s.dt, s.status⟩

/-- The host's read of a memory byte (R27, R32): none outside memory (R30). -/
def hostReadByte (cfg : Config) (a : Nat) (s : State) : Option Byte :=
  if a < cfg.memSize then some (s.byteAt cfg a) else none

/-- The host's read of an instance's registers: not while `Run()` executes (R101). -/
def CoreInstance.view (cfg : Config) (c : CoreInstance) : Host.Outcome HostView Fault Refusal :=
  c.withIdle cfg fun s => .next (hostView s)

/-- The host's read of a byte of an instance's memory: not while `Run()` executes (R101). -/
def CoreInstance.readByte (cfg : Config) (a : Nat) (c : CoreInstance) :
    Host.Outcome (Option Byte) Fault Refusal :=
  c.withIdle cfg fun s => .next (hostReadByte cfg a s)

/-- The presets of a test launch (R28 (b)) on an instance: not while `Run()` executes (R101). DESIGN CHOICE (log entry
16): every idle instance takes them, one that has already ticked or halted too, of which R28 (b) and D22 do not speak;
a halted core stays halted. -/
def CoreInstance.preset (cfg : Config) (p : Preset) (c : CoreInstance) :
    Host.Outcome (Option CoreInstance) Fault Refusal :=
  c.withIdle cfg fun s => .next ((testLaunch cfg p s).map .idle)

/-- What a run shows the outside (R94): the ClearScreen trace, the fatal error, the readable registers; memory
bytes are read with `hostReadByte`. -/
structure RunReport where
  trace : List Event
  error : Option FatalError
  view : HostView
deriving DecidableEq, Repr

/-- The report of a state (R94). -/
def report (s : State) : RunReport := ⟨s.trace, s.error, hostView s⟩

end Sys2Proof.Machine
end

