-- ==== Sys2Proof/Laws/Memory.lean ====
section
/-! SUPPORT. The laws of memory: a read after a write, and that every memory operation keeps the canonical form. -/

namespace Sys2Proof.Machine

@[simp] theorem Memory.read_nil (cfg : Config) (a : Nat) : Memory.read cfg [] a = resetByte cfg a := rfl

theorem Memory.read_cons (cfg : Config) (k : Nat) (b : Byte) (m : Memory) (a : Nat) :
    Memory.read cfg ((k, b) :: m) a = if a = k then b else Memory.read cfg m a := rfl

/-- An address that no entry lists reads as its contents after reset. -/
theorem Memory.read_of_notListed (cfg : Config) {m : Memory} {a : Nat} (h : ∀ c ∈ m, c.1 ≠ a) :
    Memory.read cfg m a = resetByte cfg a := by
  induction m with
  | nil => rfl
  | cons c m ih =>
    obtain ⟨k, b⟩ := c
    have hk : a ≠ k := fun e => h (k, b) (by simp) e.symm
    rw [Memory.read_cons, if_neg hk]
    exact ih fun c hc => h c (by simp [hc])

theorem Memory.read_put_other (cfg : Config) {a a' : Nat} (h : a' ≠ a) (b : Byte) (m : Memory) :
    Memory.read cfg (Memory.put cfg a b m) a' = Memory.read cfg m a' := by
  unfold Memory.put
  split
  · rfl
  · rw [Memory.read_cons, if_neg h]

theorem Memory.read_put_same (cfg : Config) (a : Nat) (b : Byte) {m : Memory} (h : ∀ c ∈ m, c.1 ≠ a) :
    Memory.read cfg (Memory.put cfg a b m) a = b := by
  unfold Memory.put
  split
  · next hb => rw [Memory.read_of_notListed cfg h, hb]
  · rw [Memory.read_cons, if_pos rfl]

/-- A write leaves every other address alone. -/
theorem Memory.read_write_other (cfg : Config) (m : Memory) {a a' : Nat} (h : a' ≠ a) (b : Byte) :
    Memory.read cfg (Memory.write cfg m a b) a' = Memory.read cfg m a' := by
  induction m with
  | nil => simp only [Memory.write]; exact Memory.read_put_other cfg h b []
  | cons c m ih =>
    obtain ⟨k, d⟩ := c
    simp only [Memory.write]
    split
    · exact Memory.read_put_other cfg h b _
    · split
      · next hk => rw [Memory.read_put_other cfg h, Memory.read_cons, if_neg (hk ▸ h)]
      · rw [Memory.read_cons, Memory.read_cons, ih]

/-- A read after a write to the same address gives the value written. -/
theorem Memory.read_write_same (cfg : Config) {m : Memory} (hm : m.Pairwise fun c d => c.1 < d.1)
    (a : Nat) (b : Byte) : Memory.read cfg (Memory.write cfg m a b) a = b := by
  induction m with
  | nil => exact Memory.read_put_same cfg a b (by simp)
  | cons c m ih =>
    obtain ⟨k, d⟩ := c
    rw [List.pairwise_cons] at hm
    simp only [Memory.write]
    split
    · next hlt =>
      apply Memory.read_put_same
      intro c hc
      rcases List.mem_cons.1 hc with rfl | hc
      · simp only; omega
      · have := hm.1 c hc
        simp only at this
        omega
    · split
      · next hk =>
        apply Memory.read_put_same
        intro c hc
        have := hm.1 c hc
        simp only at this
        omega
      · next hk =>
        rw [Memory.read_cons, if_neg hk]
        exact ih hm.2

theorem Memory.mem_put {cfg : Config} {a : Nat} {b : Byte} {m : Memory} {c : Host.Cell}
    (h : c ∈ Memory.put cfg a b m) : (c = (a, b) ∧ b ≠ resetByte cfg a) ∨ c ∈ m := by
  unfold Memory.put at h
  split at h
  · exact .inr h
  · next hb => exact (List.mem_cons.1 h).imp (fun e => ⟨e, hb⟩) id

theorem Memory.mem_write {cfg : Config} {m : Memory} {a : Nat} {b : Byte} {c : Host.Cell}
    (h : c ∈ Memory.write cfg m a b) : (c = (a, b) ∧ b ≠ resetByte cfg a) ∨ c ∈ m := by
  induction m with
  | nil => exact Memory.mem_put h
  | cons e m ih =>
    obtain ⟨k, d⟩ := e
    simp only [Memory.write] at h
    split at h
    · exact Memory.mem_put h
    · split at h
      · exact (Memory.mem_put h).imp id fun hc => List.mem_cons_of_mem _ hc
      · rcases List.mem_cons.1 h with rfl | hc
        · exact .inr (by simp)
        · exact (ih hc).imp id fun hc => List.mem_cons_of_mem _ hc

theorem Memory.pairwise_put {cfg : Config} {a : Nat} {b : Byte} {m : Memory}
    (hm : m.Pairwise fun c d => c.1 < d.1) (ha : ∀ c ∈ m, a < c.1) :
    (Memory.put cfg a b m).Pairwise fun c d => c.1 < d.1 := by
  unfold Memory.put
  split
  · exact hm
  · exact List.pairwise_cons.2 ⟨ha, hm⟩

theorem Memory.pairwise_write {cfg : Config} {m : Memory} (hm : m.Pairwise fun c d => c.1 < d.1)
    (a : Nat) (b : Byte) : (Memory.write cfg m a b).Pairwise fun c d => c.1 < d.1 := by
  induction m with
  | nil => exact Memory.pairwise_put .nil (by simp)
  | cons e m ih =>
    obtain ⟨k, d⟩ := e
    have hc := List.pairwise_cons.1 hm
    simp only [Memory.write]
    split
    · next hlt =>
      refine Memory.pairwise_put hm fun c hc' => ?_
      rcases List.mem_cons.1 hc' with rfl | hc'
      · exact hlt
      · exact lt_trans hlt (hc.1 c hc')
    · split
      · next hk => exact Memory.pairwise_put hc.2 fun c hc' => hk ▸ hc.1 c hc'
      · next hlt hk =>
        refine List.pairwise_cons.2 ⟨fun c hc' => ?_, ih hc.2⟩
        rcases Memory.mem_write hc' with ⟨rfl, _⟩ | hc'
        · simp only; omega
        · exact hc.1 c hc'

/-- A write inside memory keeps the canonical form. -/
theorem Memory.wf_write {cfg : Config} {m : Memory} (hm : Memory.wf cfg m) {a : Nat} (ha : a < cfg.memSize)
    (b : Byte) : Memory.wf cfg (Memory.write cfg m a b) :=
  ⟨Memory.pairwise_write hm.1 a b, fun _ hc =>
    (Memory.mem_write hc).elim (fun h => h.1 ▸ ⟨ha, h.2⟩) fun h => hm.2 _ h⟩

/-- A byte sequence that fits keeps the canonical form. -/
theorem Memory.wf_writeBytes {cfg : Config} (bs : List Byte) {m : Memory} (hm : Memory.wf cfg m) {a : Nat}
    (ha : a + bs.length ≤ cfg.memSize) : Memory.wf cfg (Memory.writeBytes cfg m a bs) := by
  induction bs generalizing m a with
  | nil => exact hm
  | cons b bs ih =>
    rw [List.length_cons] at ha
    exact ih (Memory.wf_write hm (by omega) b) (by omega)

/-- A byte sequence leaves every address outside it alone. -/
theorem Memory.read_writeBytes_outside (cfg : Config) (bs : List Byte) (m : Memory) (a : Nat) {a' : Nat}
    (h : a' < a ∨ a + bs.length ≤ a') :
    Memory.read cfg (Memory.writeBytes cfg m a bs) a' = Memory.read cfg m a' := by
  induction bs generalizing m a with
  | nil => rfl
  | cons b bs ih =>
    rw [List.length_cons] at h
    rw [Memory.writeBytes, ih _ _ (by omega), Memory.read_write_other cfg m (by omega)]

/-- A byte sequence reads back byte for byte. -/
theorem Memory.read_writeBytes_inside (cfg : Config) (bs : List Byte) {m : Memory}
    (hm : m.Pairwise fun c d => c.1 < d.1) (a : Nat) {k : Nat} (hk : k < bs.length) :
    Memory.read cfg (Memory.writeBytes cfg m a bs) (a + k) = bs.getD k 0x00#8 := by
  induction bs generalizing m a k with
  | nil => simp at hk
  | cons b bs ih =>
    rw [Memory.writeBytes]
    cases k with
    | zero =>
      rw [Memory.read_writeBytes_outside cfg bs _ _ (by omega)]
      simpa using Memory.read_write_same cfg hm a b
    | succ k =>
      rw [List.length_cons] at hk
      have := ih (Memory.pairwise_write (cfg := cfg) hm a b) (a + 1) (k := k) (by omega)
      rw [show a + (k + 1) = a + 1 + k by omega, this]
      simp

/-- The memory of a reset state is canonical. -/
theorem reset_mem_wf (cfg : Config) : Memory.wf cfg (State.resetWith cfg).mem :=
  ⟨.nil, by simp [State.resetWith]⟩

/-- LoadProgram keeps the canonical form. -/
theorem loadProgram_mem_wf {cfg : Config} (bytes : List Byte) {s : State} (h : Memory.wf cfg s.mem) :
    Memory.wf cfg (loadProgram cfg bytes s).state.mem := by
  unfold loadProgram
  split
  · exact h
  · next hfit => exact Memory.wf_writeBytes bytes h (by omega)

/-- The font region holds the table after reset (R25). -/
theorem resetByte_font (cfg : Config) (k : Nat) :
    resetByte cfg (cfg.fontBase.toNat + k) = cfg.fontTable.getD k 0x00#8 := by
  simp [resetByte]

/-- Every address outside the font region holds 0x00 after reset (R25). -/
theorem resetByte_outside {cfg : Config} {a : Nat}
    (h : a < cfg.fontBase.toNat ∨ cfg.fontBase.toNat + cfg.fontLen ≤ a) : resetByte cfg a = 0x00#8 := by
  unfold resetByte
  unfold Config.fontLen at h
  split
  · rw [List.getD_eq_default]
    omega
  · rfl

end Sys2Proof.Machine
end

