-- ==== Sys2Proof/Machine/Asm.lean ====
section
/-! DEFINITION. The assembler lines of the spec's examples (R55, R56 of spec/30_encoding.md) and the text form of an
opcode in an error (R78). Text is a list of characters. Syntax only: the machine uses none of it. Log entry 21. -/

namespace Sys2Proof

/-- An uppercase hex digit. -/
def hexDigit (d : Nibble) : Char :=
  ['0', '1', '2', '3', '4', '5', '6', '7', '8', '9', 'A', 'B', 'C', 'D', 'E', 'F'].getD d.toNat '0'

/-- The value of a hex digit, in either case. -/
def hexValue (c : Char) : Option Nibble :=
  let n := c.toNat
  if 48 ≤ n ∧ n ≤ 57 then some (BitVec.ofNat 4 (n - 48))
  else if 65 ≤ n ∧ n ≤ 70 then some (BitVec.ofNat 4 (n - 55))
  else if 97 ≤ n ∧ n ≤ 102 then some (BitVec.ofNat 4 (n - 87))
  else none

/-- `0x` and three uppercase hex digits (R55's `nnn`). -/
def immText (nnn : Imm12) : List Char :=
  ['0', 'x', hexDigit (nnn.extractLsb' 8 4), hexDigit (nnn.extractLsb' 4 4), hexDigit (nnn.extractLsb' 0 4)]

/-- `0x` and exactly four uppercase hex digits, zero-padded: the text form of R78, and R55's `0xhhhh`. -/
def wordText (w : Word) : List Char :=
  ['0', 'x', hexDigit (familyField w), hexDigit (xField w), hexDigit (yField w), hexDigit (subField w)]

/-- What a line places in memory: an instruction, or a raw word by the `.word` directive (R56). -/
inductive AsmItem where
  | instr (i : Instr)
  | word (w : Word)
deriving DecidableEq, Repr

/-- The text of an item (R55). -/
def asmText : AsmItem → List Char
  | .instr .cls => ['C', 'L', 'S']
  | .instr (.add x y) => ['A', 'D', 'D', ' ', 'V', hexDigit x, ',', ' ', 'V', hexDigit y]
  | .instr (.ldI nnn) => ['L', 'D', ' ', 'I', ',', ' '] ++ immText nnn
  | .instr (.call nnn) => ['C', 'A', 'L', 'L', ' '] ++ immText nnn
  | .word w => ['.', 'w', 'o', 'r', 'd', ' '] ++ wordText w

/-- The word an item places, big-endian in memory (R55, R56). -/
def asmWord (cfg : Config) : AsmItem → Word
  | .instr i => encode cfg i
  | .word w => w

/-- The bytes of a program, item after item. -/
def assemble (cfg : Config) (items : List AsmItem) : List Byte := items.flatMap fun i => bytesOfWord (asmWord cfg i)

/-- A line without its comment: `;` starts one (R55). -/
def stripComment : List Char → List Char
  | [] => []
  | c :: cs => if c = ';' then [] else c :: stripComment cs

/-- Put a finished token in front, unless it is empty. -/
def pushToken (t : List Char) (ts : List (List Char)) : List (List Char) := if t = [] then ts else t :: ts

/-- The token at the head of the text, and the tokens after it: blanks separate, a comma stands alone. -/
def scanTokens : List Char → List Char × List (List Char)
  | [] => ([], [])
  | c :: cs =>
    let r := scanTokens cs
    if c = ' ' ∨ c = '\t' then ([], pushToken r.1 r.2)
    else if c = ',' then ([], [','] :: pushToken r.1 r.2)
    else (c :: r.1, r.2)

/-- The tokens of a line. -/
def lineTokens (cs : List Char) : List (List Char) :=
  let r := scanTokens (stripComment cs)
  pushToken r.1 r.2

/-- `Vx` (R55). -/
def parseReg : List Char → Option Nibble
  | [v, x] => if v = 'V' then hexValue x else none
  | _ => none

/-- `0x` and three hex digits (R55). -/
def parseImm : List Char → Option Imm12
  | [z, x, a, b, c] =>
    if z = '0' ∧ x = 'x' then
      match hexValue a, hexValue b, hexValue c with
      | some a, some b, some c => some (a ++ (b ++ c))
      | _, _, _ => none
    else none
  | _ => none

/-- `0x` and four hex digits (R55). -/
def parseWord : List Char → Option Word
  | [z, x, a, b, c, d] =>
    if z = '0' ∧ x = 'x' then
      match hexValue a, hexValue b, hexValue c, hexValue d with
      | some a, some b, some c, some d => some (fieldsWord a b c d)
      | _, _, _, _ => none
    else none
  | _ => none

/-- The item a line's tokens spell (R55, R56). -/
def parseItem : List (List Char) → Option AsmItem
  | [m] => if m = ['C', 'L', 'S'] then some (.instr .cls) else none
  | [m, a] =>
    if m = ['C', 'A', 'L', 'L'] then (parseImm a).map fun nnn => .instr (.call nnn)
    else if m = ['.', 'w', 'o', 'r', 'd'] then (parseWord a).map .word
    else none
  | [m, a, c, b] =>
    if c ≠ [','] then none
    else if m = ['A', 'D', 'D'] then
      match parseReg a, parseReg b with
      | some x, some y => some (.instr (.add x y))
      | _, _ => none
    else if m = ['L', 'D'] ∧ a = ['I'] then (parseImm b).map fun nnn => .instr (.ldI nnn)
    else none
  | _ => none

/-- An address label: a hex address of three or four digits and a colon (R55). -/
def isLabel (t : List Char) : Bool :=
  t.getLast? == some ':' && ((parseImm t.dropLast).isSome || (parseWord t.dropLast).isSome)

/-- The tokens after an address label, which may start a line (R55). -/
def dropLabel : List (List Char) → List (List Char)
  | [] => []
  | t :: ts => if isLabel t then ts else t :: ts

/-- A line: nothing, or one item (R55). `none` is a line that is no assembler line. -/
def parseLine (cs : List Char) : Option (List AsmItem) :=
  match dropLabel (lineTokens cs) with
  | [] => some []
  | ts => (parseItem ts).map fun i => [i]

/-- The items of a program, line by line; `none` if some line is no assembler line. -/
def parseProgram : List (List Char) → Option (List AsmItem)
  | [] => some []
  | l :: ls =>
    match parseLine l, parseProgram ls with
    | some is, some js => some (is ++ js)
    | _, _ => none

end Sys2Proof
end

