-- ==== Sys2Proof/Laws/Decode.lean ====
section
/-! SUPPORT. The small lemmas of fields, words and bytes: each as a number, then how they fit together. -/

namespace Sys2Proof

theorem append_toNat {n m : Nat} (a : BitVec n) (b : BitVec m) :
    (a ++ b).toNat = a.toNat * 2 ^ m + b.toNat := by
  rw [BitVec.toNat_append, ← Nat.shiftLeft_add_eq_or_of_lt b.isLt, Nat.shiftLeft_eq]

theorem familyField_toNat (op : Word) : (familyField op).toNat = op.toNat / 4096 := by
  have := op.isLt
  simp only [familyField, BitVec.extractLsb'_toNat, Nat.shiftRight_eq_div_pow]
  omega

theorem xField_toNat (op : Word) : (xField op).toNat = op.toNat / 256 % 16 := by
  simp only [xField, BitVec.extractLsb'_toNat, Nat.shiftRight_eq_div_pow]

theorem yField_toNat (op : Word) : (yField op).toNat = op.toNat / 16 % 16 := by
  simp only [yField, BitVec.extractLsb'_toNat, Nat.shiftRight_eq_div_pow]

theorem subField_toNat (op : Word) : (subField op).toNat = op.toNat % 16 := by
  simp only [subField, BitVec.extractLsb'_toNat, Nat.shiftRight_eq_div_pow]
  omega

theorem nnnField_toNat (op : Word) : (nnnField op).toNat = op.toNat % 4096 := by
  simp only [nnnField, BitVec.extractLsb'_toNat, Nat.shiftRight_eq_div_pow]
  omega

theorem fieldsWord_toNat (f x y z : Nibble) :
    (fieldsWord f x y z).toNat = f.toNat * 4096 + x.toNat * 256 + y.toNat * 16 + z.toNat := by
  have h1 := append_toNat y z
  have h2 := append_toNat x (y ++ z)
  have h3 := append_toNat f (x ++ (y ++ z))
  refine Eq.trans h3 ?_
  rw [h2, h1]
  omega

theorem immWord_toNat (f : Nibble) (nnn : Imm12) : (immWord f nnn).toNat = f.toNat * 4096 + nnn.toNat :=
  append_toNat f nnn

theorem wordOfBytes_toNat (hi lo : Byte) : (wordOfBytes hi lo).toNat = hi.toNat * 256 + lo.toNat :=
  append_toNat hi lo

theorem highByte_toNat (op : Word) : (highByte op).toNat = op.toNat / 256 := by
  have := op.isLt
  simp only [highByte, BitVec.extractLsb'_toNat, Nat.shiftRight_eq_div_pow]
  omega

theorem lowByte_toNat (op : Word) : (lowByte op).toNat = op.toNat % 256 := by
  simp only [lowByte, BitVec.extractLsb'_toNat, Nat.shiftRight_eq_div_pow]
  omega

@[simp] theorem wordOfBytes_bytes (op : Word) : wordOfBytes (highByte op) (lowByte op) = op := by
  apply BitVec.eq_of_toNat_eq
  rw [wordOfBytes_toNat, highByte_toNat, lowByte_toNat]
  omega

@[simp] theorem familyField_fieldsWord (f x y z : Nibble) : familyField (fieldsWord f x y z) = f := by
  apply BitVec.eq_of_toNat_eq
  rw [familyField_toNat, fieldsWord_toNat]
  omega

@[simp] theorem xField_fieldsWord (f x y z : Nibble) : xField (fieldsWord f x y z) = x := by
  apply BitVec.eq_of_toNat_eq
  rw [xField_toNat, fieldsWord_toNat]
  omega

@[simp] theorem yField_fieldsWord (f x y z : Nibble) : yField (fieldsWord f x y z) = y := by
  apply BitVec.eq_of_toNat_eq
  rw [yField_toNat, fieldsWord_toNat]
  omega

@[simp] theorem subField_fieldsWord (f x y z : Nibble) : subField (fieldsWord f x y z) = z := by
  apply BitVec.eq_of_toNat_eq
  rw [subField_toNat, fieldsWord_toNat]
  omega

@[simp] theorem familyField_immWord (f : Nibble) (nnn : Imm12) : familyField (immWord f nnn) = f := by
  apply BitVec.eq_of_toNat_eq
  rw [familyField_toNat, immWord_toNat]
  omega

@[simp] theorem nnnField_immWord (f : Nibble) (nnn : Imm12) : nnnField (immWord f nnn) = nnn := by
  apply BitVec.eq_of_toNat_eq
  rw [nnnField_toNat, immWord_toNat]
  omega

/-- A word is its four nibbles. -/
theorem fieldsWord_of_fields (op : Word) :
    fieldsWord (familyField op) (xField op) (yField op) (subField op) = op := by
  apply BitVec.eq_of_toNat_eq
  rw [fieldsWord_toNat, familyField_toNat, xField_toNat, yField_toNat, subField_toNat]
  omega

/-- A word is its family and its NNN. -/
theorem immWord_of_fields (op : Word) : immWord (familyField op) (nnnField op) = op := by
  apply BitVec.eq_of_toNat_eq
  rw [immWord_toNat, familyField_toNat, nnnField_toNat]
  omega

/-- What a decoded instruction says about its word, one case per instruction class (R50). -/
theorem decode_instr_cases {cfg : Config} {op : Word} {i : Instr} (h : decode cfg op = .instr i) :
    (familyField op = 0#4 ∧ subField op = cfg.addSub ∧ i = .add (xField op) (yField op)) ∨
    (familyField op = 0#4 ∧ subField op ≠ cfg.addSub ∧ subField op = cfg.clsSub ∧ i = .cls) ∨
    (familyField op ≠ 0#4 ∧ familyField op = cfg.setiFam ∧ i = .ldI (nnnField op)) ∨
    (familyField op ≠ 0#4 ∧ familyField op ≠ cfg.setiFam ∧ familyField op = cfg.callFam ∧
      i = .call (nnnField op)) := by
  unfold decode at h
  split at h
  · next hf =>
    split at h
    · next hs => exact .inl ⟨hf, hs, (Decoded.instr.inj h).symm⟩
    · next ha =>
      split at h
      · next hs => exact .inr (.inl ⟨hf, ha, hs, (Decoded.instr.inj h).symm⟩)
      · cases h
  · next hf =>
    split at h
    · next hs => exact .inr (.inr (.inl ⟨hf, hs, (Decoded.instr.inj h).symm⟩))
    · next ha =>
      split at h
      · next hs => exact .inr (.inr (.inr ⟨hf, ha, hs, (Decoded.instr.inj h).symm⟩))
      · cases h

/-- An invalid result carries the word itself (R54). -/
theorem decode_invalid_word {cfg : Config} {op w : Word} (h : decode cfg op = .invalid w) : w = op := by
  unfold decode at h
  repeat' split at h
  all_goals first | cases h; rfl | cases h

/-- The default binding is legal (R3: "The defaults of rule R3 are legal"). -/
theorem standard_legal : Config.standard.Legal := by decide

end Sys2Proof
end

