-- ==== Sys2Proof/Laws/State.lean ====
section
/-! SUPPORT. What each state update does to each field: one lemma per field per update, so that no later proof
unfolds a record update. -/

namespace Sys2Proof.Machine

@[simp] theorem writeV_v (x : Nibble) (b : Byte) (s : State) : (writeV x b s).v = s.v.set x.toNat b x.isLt := rfl
@[simp] theorem writeV_carry (x : Nibble) (b : Byte) (s : State) : (writeV x b s).carry = s.carry := rfl
@[simp] theorem writeV_pc (x : Nibble) (b : Byte) (s : State) : (writeV x b s).pc = s.pc := rfl
@[simp] theorem writeV_index (x : Nibble) (b : Byte) (s : State) : (writeV x b s).index = s.index := rfl
@[simp] theorem writeV_stack (x : Nibble) (b : Byte) (s : State) : (writeV x b s).stack = s.stack := rfl
@[simp] theorem writeV_dt (x : Nibble) (b : Byte) (s : State) : (writeV x b s).dt = s.dt := rfl
@[simp] theorem writeV_mem (x : Nibble) (b : Byte) (s : State) : (writeV x b s).mem = s.mem := rfl
@[simp] theorem writeV_status (x : Nibble) (b : Byte) (s : State) : (writeV x b s).status = s.status := rfl
@[simp] theorem writeV_lastTick (x : Nibble) (b : Byte) (s : State) : (writeV x b s).lastTick = s.lastTick := rfl
@[simp] theorem writeV_trace (x : Nibble) (b : Byte) (s : State) : (writeV x b s).trace = s.trace := rfl

@[simp] theorem writeC_v (c : Byte) (s : State) : (writeC c s).v = s.v := rfl
@[simp] theorem writeC_carry (c : Byte) (s : State) : (writeC c s).carry = c := rfl
@[simp] theorem writeC_pc (c : Byte) (s : State) : (writeC c s).pc = s.pc := rfl
@[simp] theorem writeC_index (c : Byte) (s : State) : (writeC c s).index = s.index := rfl
@[simp] theorem writeC_stack (c : Byte) (s : State) : (writeC c s).stack = s.stack := rfl
@[simp] theorem writeC_dt (c : Byte) (s : State) : (writeC c s).dt = s.dt := rfl
@[simp] theorem writeC_mem (c : Byte) (s : State) : (writeC c s).mem = s.mem := rfl
@[simp] theorem writeC_status (c : Byte) (s : State) : (writeC c s).status = s.status := rfl
@[simp] theorem writeC_lastTick (c : Byte) (s : State) : (writeC c s).lastTick = s.lastTick := rfl
@[simp] theorem writeC_trace (c : Byte) (s : State) : (writeC c s).trace = s.trace := rfl

@[simp] theorem writeI_v (w : Word) (s : State) : (writeI w s).v = s.v := rfl
@[simp] theorem writeI_carry (w : Word) (s : State) : (writeI w s).carry = s.carry := rfl
@[simp] theorem writeI_pc (w : Word) (s : State) : (writeI w s).pc = s.pc := rfl
@[simp] theorem writeI_index (w : Word) (s : State) : (writeI w s).index = w := rfl
@[simp] theorem writeI_stack (w : Word) (s : State) : (writeI w s).stack = s.stack := rfl
@[simp] theorem writeI_dt (w : Word) (s : State) : (writeI w s).dt = s.dt := rfl
@[simp] theorem writeI_mem (w : Word) (s : State) : (writeI w s).mem = s.mem := rfl
@[simp] theorem writeI_status (w : Word) (s : State) : (writeI w s).status = s.status := rfl
@[simp] theorem writeI_lastTick (w : Word) (s : State) : (writeI w s).lastTick = s.lastTick := rfl
@[simp] theorem writeI_trace (w : Word) (s : State) : (writeI w s).trace = s.trace := rfl

@[simp] theorem writePc_v (w : Word) (s : State) : (writePc w s).v = s.v := rfl
@[simp] theorem writePc_carry (w : Word) (s : State) : (writePc w s).carry = s.carry := rfl
@[simp] theorem writePc_pc (w : Word) (s : State) : (writePc w s).pc = w := rfl
@[simp] theorem writePc_index (w : Word) (s : State) : (writePc w s).index = s.index := rfl
@[simp] theorem writePc_stack (w : Word) (s : State) : (writePc w s).stack = s.stack := rfl
@[simp] theorem writePc_dt (w : Word) (s : State) : (writePc w s).dt = s.dt := rfl
@[simp] theorem writePc_mem (w : Word) (s : State) : (writePc w s).mem = s.mem := rfl
@[simp] theorem writePc_status (w : Word) (s : State) : (writePc w s).status = s.status := rfl
@[simp] theorem writePc_lastTick (w : Word) (s : State) : (writePc w s).lastTick = s.lastTick := rfl
@[simp] theorem writePc_trace (w : Word) (s : State) : (writePc w s).trace = s.trace := rfl

@[simp] theorem incrementPc_v (s : State) : (incrementPc s).v = s.v := rfl
@[simp] theorem incrementPc_carry (s : State) : (incrementPc s).carry = s.carry := rfl
@[simp] theorem incrementPc_pc (s : State) : (incrementPc s).pc = s.pc + 2#16 := rfl
@[simp] theorem incrementPc_index (s : State) : (incrementPc s).index = s.index := rfl
@[simp] theorem incrementPc_stack (s : State) : (incrementPc s).stack = s.stack := rfl
@[simp] theorem incrementPc_dt (s : State) : (incrementPc s).dt = s.dt := rfl
@[simp] theorem incrementPc_mem (s : State) : (incrementPc s).mem = s.mem := rfl
@[simp] theorem incrementPc_status (s : State) : (incrementPc s).status = s.status := rfl
@[simp] theorem incrementPc_lastTick (s : State) : (incrementPc s).lastTick = s.lastTick := rfl
@[simp] theorem incrementPc_trace (s : State) : (incrementPc s).trace = s.trace := rfl

@[simp] theorem raiseFatal_v (e : FatalError) (s : State) : (raiseFatal e s).v = s.v := rfl
@[simp] theorem raiseFatal_carry (e : FatalError) (s : State) : (raiseFatal e s).carry = s.carry := rfl
@[simp] theorem raiseFatal_pc (e : FatalError) (s : State) : (raiseFatal e s).pc = s.pc := rfl
@[simp] theorem raiseFatal_index (e : FatalError) (s : State) : (raiseFatal e s).index = s.index := rfl
@[simp] theorem raiseFatal_stack (e : FatalError) (s : State) : (raiseFatal e s).stack = s.stack := rfl
@[simp] theorem raiseFatal_dt (e : FatalError) (s : State) : (raiseFatal e s).dt = s.dt := rfl
@[simp] theorem raiseFatal_mem (e : FatalError) (s : State) : (raiseFatal e s).mem = s.mem := rfl
@[simp] theorem raiseFatal_status (e : FatalError) (s : State) : (raiseFatal e s).status = .halted e := rfl
@[simp] theorem raiseFatal_lastTick (e : FatalError) (s : State) : (raiseFatal e s).lastTick = s.lastTick := rfl
@[simp] theorem raiseFatal_trace (e : FatalError) (s : State) : (raiseFatal e s).trace = s.trace := rfl

@[simp] theorem displayClear_v (s : State) : (displayClear s).v = s.v := rfl
@[simp] theorem displayClear_carry (s : State) : (displayClear s).carry = s.carry := rfl
@[simp] theorem displayClear_pc (s : State) : (displayClear s).pc = s.pc := rfl
@[simp] theorem displayClear_index (s : State) : (displayClear s).index = s.index := rfl
@[simp] theorem displayClear_stack (s : State) : (displayClear s).stack = s.stack := rfl
@[simp] theorem displayClear_dt (s : State) : (displayClear s).dt = s.dt := rfl
@[simp] theorem displayClear_mem (s : State) : (displayClear s).mem = s.mem := rfl
@[simp] theorem displayClear_status (s : State) : (displayClear s).status = s.status := rfl
@[simp] theorem displayClear_lastTick (s : State) : (displayClear s).lastTick = s.lastTick := rfl
@[simp] theorem displayClear_trace (s : State) : (displayClear s).trace = s.trace ++ [.clearScreen] := rfl

@[simp] theorem decrementTimer_v (s : State) : (decrementTimer s).v = s.v := rfl
@[simp] theorem decrementTimer_carry (s : State) : (decrementTimer s).carry = s.carry := rfl
@[simp] theorem decrementTimer_pc (s : State) : (decrementTimer s).pc = s.pc := rfl
@[simp] theorem decrementTimer_index (s : State) : (decrementTimer s).index = s.index := rfl
@[simp] theorem decrementTimer_stack (s : State) : (decrementTimer s).stack = s.stack := rfl
@[simp] theorem decrementTimer_dt (s : State) : (decrementTimer s).dt = if s.dt = 0#8 then s.dt else s.dt - 1#8 := rfl
@[simp] theorem decrementTimer_mem (s : State) : (decrementTimer s).mem = s.mem := rfl
@[simp] theorem decrementTimer_status (s : State) : (decrementTimer s).status = s.status := rfl
@[simp] theorem decrementTimer_lastTick (s : State) : (decrementTimer s).lastTick = s.lastTick := rfl
@[simp] theorem decrementTimer_trace (s : State) : (decrementTimer s).trace = s.trace := rfl

@[simp] theorem stamp_v (l : LastTick) (s : State) : (s.stamp l).v = s.v := rfl
@[simp] theorem stamp_carry (l : LastTick) (s : State) : (s.stamp l).carry = s.carry := rfl
@[simp] theorem stamp_pc (l : LastTick) (s : State) : (s.stamp l).pc = s.pc := rfl
@[simp] theorem stamp_index (l : LastTick) (s : State) : (s.stamp l).index = s.index := rfl
@[simp] theorem stamp_stack (l : LastTick) (s : State) : (s.stamp l).stack = s.stack := rfl
@[simp] theorem stamp_dt (l : LastTick) (s : State) : (s.stamp l).dt = s.dt := rfl
@[simp] theorem stamp_mem (l : LastTick) (s : State) : (s.stamp l).mem = s.mem := rfl
@[simp] theorem stamp_status (l : LastTick) (s : State) : (s.stamp l).status = s.status := rfl
@[simp] theorem stamp_lastTick (l : LastTick) (s : State) : (s.stamp l).lastTick = l := rfl
@[simp] theorem stamp_trace (l : LastTick) (s : State) : (s.stamp l).trace = s.trace := rfl

@[simp] theorem byteAt_stamp (cfg : Config) (l : LastTick) (s : State) (a : Nat) :
    (s.stamp l).byteAt cfg a = s.byteAt cfg a := rfl
@[simp] theorem stamp_stamp (k l : LastTick) (s : State) : (s.stamp k).stamp l = s.stamp l := rfl
@[simp] theorem stamp_self (s : State) : s.stamp s.lastTick = s := rfl

@[simp] theorem byteAt_writeV (cfg : Config) (x : Nibble) (b : Byte) (s : State) (a : Nat) :
    (writeV x b s).byteAt cfg a = s.byteAt cfg a := rfl
@[simp] theorem byteAt_writeC (cfg : Config) (c : Byte) (s : State) (a : Nat) :
    (writeC c s).byteAt cfg a = s.byteAt cfg a := rfl
@[simp] theorem byteAt_writeI (cfg : Config) (w : Word) (s : State) (a : Nat) :
    (writeI w s).byteAt cfg a = s.byteAt cfg a := rfl
@[simp] theorem byteAt_writePc (cfg : Config) (w : Word) (s : State) (a : Nat) :
    (writePc w s).byteAt cfg a = s.byteAt cfg a := rfl
@[simp] theorem byteAt_incrementPc (cfg : Config) (s : State) (a : Nat) :
    (incrementPc s).byteAt cfg a = s.byteAt cfg a := rfl
@[simp] theorem byteAt_raiseFatal (cfg : Config) (e : FatalError) (s : State) (a : Nat) :
    (raiseFatal e s).byteAt cfg a = s.byteAt cfg a := rfl
@[simp] theorem byteAt_displayClear (cfg : Config) (s : State) (a : Nat) :
    (displayClear s).byteAt cfg a = s.byteAt cfg a := rfl
@[simp] theorem byteAt_decrementTimer (cfg : Config) (s : State) (a : Nat) :
    (decrementTimer s).byteAt cfg a = s.byteAt cfg a := rfl

@[simp] theorem readV_writeV_same (x : Nibble) (b : Byte) (s : State) : readV x (writeV x b s) = b := by
  simp [readV]

theorem readV_writeV_other {x y : Nibble} (h : y ≠ x) (b : Byte) (s : State) :
    readV y (writeV x b s) = readV y s := by
  have hn : x.toNat ≠ y.toNat := fun e => h (BitVec.eq_of_toNat_eq e.symm)
  simp [readV, hn]

@[simp] theorem readV_writeC (x : Nibble) (c : Byte) (s : State) : readV x (writeC c s) = readV x s := rfl

@[simp] theorem readV_incrementPc (x : Nibble) (s : State) : readV x (incrementPc s) = readV x s := rfl

theorem zextImm_toNat (nnn : Imm12) : (zextImm nnn).toNat = nnn.toNat := by
  have := nnn.isLt
  simp only [zextImm, BitVec.toNat_setWidth]
  omega

/-- The timer's decrement as one record update. -/
theorem decrementTimer_eq (s : State) :
    decrementTimer s = { s with dt := if s.dt = 0#8 then 0#8 else s.dt - 1#8 } := by
  unfold decrementTimer
  split
  · next h => rw [h]
  · rfl

/-- The timer after a tick, floored at zero (R88). -/
theorem decrementTimer_dt_toNat (s : State) : (decrementTimer s).dt.toNat = s.dt.toNat - 1 := by
  rw [decrementTimer_dt]
  split
  · next h => simp [h]
  · next h =>
    have h0 : s.dt.toNat ≠ 0 := fun e => h (BitVec.eq_of_toNat_eq (by simpa using e))
    have := s.dt.isLt
    rw [BitVec.toNat_sub]
    simp only [BitVec.toNat_ofNat]
    omega

end Sys2Proof.Machine
end

