-- ==== Sys2Proof/Laws/Ops.lean ====
section
/-! SUPPORT. One lemma per shared operation that says everything it can do, and one per instruction body. -/

namespace Sys2Proof.Machine

/-- `Push` (R68): it overflows with a full stack, else appends. -/
theorem push_cases {cfg : Config} {w : Word} {s : State} {r : Except FatalError State} (h : push cfg w s = r) :
    (s.stack.length = cfg.stackCap ∧ r = .error .stackOverflow) ∨
    (s.stack.length ≠ cfg.stackCap ∧ r = .ok { s with stack := s.stack ++ [w] }) := by
  unfold push at h
  split at h
  · next hl => exact .inl ⟨hl, h.symm⟩
  · next hl => exact .inr ⟨hl, h.symm⟩

theorem push_full {cfg : Config} {w : Word} {s : State} (h : s.stack.length = cfg.stackCap) :
    push cfg w s = .error .stackOverflow := if_pos h

theorem push_room {cfg : Config} {w : Word} {s : State} (h : s.stack.length ≠ cfg.stackCap) :
    push cfg w s = .ok { s with stack := s.stack ++ [w] } := if_neg h

/-- `Pop` (R69): it underflows on an empty stack, else returns the last entry and drops it. -/
theorem pop_cases {s : State} {r : Except FatalError (Word × State)} (h : pop s = r) :
    (s.stack = [] ∧ r = .error .stackUnderflow) ∨
    (∃ below w, s.stack = below ++ [w] ∧ r = .ok (w, { s with stack := below })) := by
  subst h
  rcases List.eq_nil_or_concat s.stack with h | ⟨below, w, h⟩
  · exact .inl ⟨h, by simp [pop, h]⟩
  · exact .inr ⟨below, w, by simpa using h, by simp [pop, h]⟩

/-- The fetch (R35, R36): out of range, or the two bytes at the PC. -/
theorem fetch_cases {cfg : Config} {s : State} {r : Except FatalError Word} (h : fetch cfg s = r) :
    (cfg.memSize ≤ s.pc.toNat + 1 ∧ r = .error (.fetchOutOfRange s.pc)) ∨
    (s.pc.toNat + 1 < cfg.memSize ∧
      r = .ok (wordOfBytes (s.byteAt cfg s.pc.toNat) (s.byteAt cfg (s.pc.toNat + 1)))) := by
  unfold fetch at h
  split at h
  · next hl => exact .inl ⟨hl, h.symm⟩
  · next hl => exact .inr ⟨by omega, h.symm⟩

/-- The front end of a tick (R84): the fetch bound, then decode. -/
theorem fetchDecode_cases {cfg : Config} {s : State} {r : Except FatalError Instr} (h : fetchDecode cfg s = r) :
    (cfg.memSize ≤ s.pc.toNat + 1 ∧ r = .error (.fetchOutOfRange s.pc)) ∨
    (∃ op, fetch cfg s = .ok op ∧ decode cfg op = .invalid op ∧ r = .error (.invalidOpcode op)) ∨
    (∃ op i, fetch cfg s = .ok op ∧ decode cfg op = .instr i ∧ r = .ok i) := by
  unfold fetchDecode at h
  rcases fetch_cases (cfg := cfg) (s := s) rfl with ⟨hl, hf⟩ | ⟨-, hf⟩
  · rw [hf] at h
    exact .inl ⟨hl, h.symm⟩
  · rw [hf] at h
    simp only at h
    split at h
    · next i hd => exact .inr (.inr ⟨_, i, hf, hd, h.symm⟩)
    · next w hd =>
      have hw := decode_invalid_word hd
      exact .inr (.inl ⟨_, hf, hw ▸ hd, hw ▸ h.symm⟩)

/-- The front end reads the PC and the memory only. -/
theorem fetchDecode_congr {cfg : Config} {s t : State} (hpc : s.pc = t.pc) (hmem : s.mem = t.mem) :
    fetchDecode cfg s = fetchDecode cfg t := by
  simp only [fetchDecode, fetch, State.byteAt, hpc, hmem]

@[simp] theorem fetchDecode_decrementTimer (cfg : Config) (s : State) :
    fetchDecode cfg (decrementTimer s) = fetchDecode cfg s := fetchDecode_congr rfl rfl

@[simp] theorem complete_advance (s : State) : complete (.returned true s) = incrementPc s := rfl

@[simp] theorem complete_stay (s : State) : complete (.returned false s) = s := rfl

@[simp] theorem complete_raised (e : FatalError) (s : State) : complete (.raised e s) = raiseFatal e s := rfl

/-- CALL on a full stack (R70): it raises before anything is written. -/
theorem callBody_full {cfg : Config} {s : State} (h : s.stack.length = cfg.stackCap) (nnn : Imm12) :
    callBody cfg nnn s = .raised .stackOverflow s := by
  simp only [callBody, push_full h]

/-- CALL with room on the stack (R70). -/
theorem callBody_room {cfg : Config} {s : State} (h : s.stack.length ≠ cfg.stackCap) (nnn : Imm12) :
    callBody cfg nnn s =
      .returned false { s with stack := s.stack ++ [s.pc], pc := zextImm nnn } := by
  simp only [callBody, push_room h]
  rfl

/-- Everything the end of an executed instruction can leave (R60, R62, R65, R70). -/
theorem complete_execute_cases (cfg : Config) (i : Instr) (s : State) :
    (i = .cls ∧ complete (execute cfg i s) = incrementPc (displayClear s)) ∨
    (∃ x y, i = .add x y ∧ complete (execute cfg i s) = incrementPc
      (writeV x (BitVec.ofNat 8 ((readV x s).toNat + (readV y s).toNat))
        (writeC (carryOfAdd (readV x s) (readV y s)) s))) ∨
    (∃ nnn, i = .ldI nnn ∧ complete (execute cfg i s) = incrementPc (writeI (zextImm nnn) s)) ∨
    (∃ nnn, i = .call nnn ∧ s.stack.length ≠ cfg.stackCap ∧
      complete (execute cfg i s) = { s with stack := s.stack ++ [s.pc], pc := zextImm nnn }) ∨
    (∃ nnn, i = .call nnn ∧ s.stack.length = cfg.stackCap ∧
      complete (execute cfg i s) = raiseFatal .stackOverflow s) := by
  cases i with
  | cls => exact .inl ⟨rfl, rfl⟩
  | add x y => exact .inr (.inl ⟨x, y, rfl, rfl⟩)
  | ldI nnn => exact .inr (.inr (.inl ⟨nnn, rfl, rfl⟩))
  | call nnn =>
    by_cases h : s.stack.length = cfg.stackCap
    · exact .inr (.inr (.inr (.inr ⟨nnn, rfl, h, by simp only [execute, callBody_full h, complete_raised]⟩)))
    · exact .inr (.inr (.inr (.inl ⟨nnn, rfl, h, by simp only [execute, callBody_room h, complete_stay]⟩)))

end Sys2Proof.Machine
end

