-- ==== Sys2Proof/Safety.lean ====
section
/-! DEFINITION. What a good state and a good run are, in the terms the statements use. -/

namespace Sys2Proof.Machine

/-- A state any legal launch may start from and every tick keeps: memory canonical, the stack within its capacity
(R18), the carry a bit (R13), and halted only by an error a tick can raise (R108). -/
structure State.WF (cfg : Config) (s : State) : Prop where
  memCanonical : Memory.wf cfg s.mem
  stackFits : s.stack.length ≤ cfg.stackCap
  carryIsBit : s.carry = 0x00#8 ∨ s.carry = 0x01#8
  haltCode : ∀ e, s.status = .halted e → e.code = 1 ∨ e.code = 3 ∨ e.code = 4

/-- The font region holds `FONT_TABLE` (R26, R31). -/
def State.FontHeld (cfg : Config) (s : State) : Prop :=
  ∀ k, k < cfg.fontLen → s.byteAt cfg (cfg.fontBase.toNat + k) = cfg.fontTable.getD k 0x00#8

/-- The invariants of R26 about one state, beside `State.WF`: the index has 12 bits, the timer is zero, the font
is in place. -/
structure State.Canonical (cfg : Config) (s : State) : Prop where
  wf : s.WF cfg
  indexSmall : s.index.toNat ≤ 0x0FFF
  timerZero : s.dt = 0x00#8
  fontHeld : s.FontHeld cfg

/-- What happens to an instance between two Resets: an answered LoadProgram or Tick, the start of a `Run()`, or one
clock sample. A host call counts only where it is answered, so none falls inside an executing `Run()` (R101). -/
inductive Advances (cfg : Config) : CoreInstance → CoreInstance → Prop
  | load {c : CoreInstance} {r : CallResult} (bytes : List Byte) (call : c.loadProgram cfg bytes = .next r) :
      Advances cfg c r.after
  | tick {c : CoreInstance} {r : CallResult} (call : c.tick cfg = .next r) : Advances cfg c r.after
  | start {c : CoreInstance} {r : CallResult} (call : c.run cfg [] = .next r) : Advances cfg c r.after
  | poll (now : Nat) (c : CoreInstance) : Advances cfg c (c.poll cfg now).after

/-- The second instance comes from the first, with no Reset between. -/
inductive LeadsTo (cfg : Config) : CoreInstance → CoreInstance → Prop
  | refl (c : CoreInstance) : LeadsTo cfg c c
  | advance {c d e : CoreInstance} (before : LeadsTo cfg c d) (last : Advances cfg d e) : LeadsTo cfg c e

/-- The instances R26 speaks of: reached through Reset, LoadProgram, Tick and `Run()`. -/
inductive Reachable (cfg : Config) : CoreInstance → Prop
  | create : Reachable cfg .neverReset
  | reset {c d : CoreInstance} (h : Reachable cfg c) (call : c.reset cfg = .next d) : Reachable cfg d
  | advance {c d : CoreInstance} (h : Reachable cfg c) (last : Advances cfg c d) : Reachable cfg d

/-- The core is about to execute a CALL: it runs, and the word at its PC decodes to one. -/
def State.AtCall (cfg : Config) (s : State) : Prop :=
  s.status = .running ∧ ∃ nnn, fetchDecode cfg s = .ok (.call nnn)

/-- A safe run of `n` ticks: none of them raises a fatal error. -/
def RunsSafely (cfg : Config) (n : Nat) (s : State) : Prop := (ticks cfg n s).status = .running

end Sys2Proof.Machine
end

