-- ==== Sys2Proof/Laws/Step.lean ====
section
/-! SUPPORT. What a tick and a step can do. -/

namespace Sys2Proof.Machine

/-- Every instruction answers a next state: the end of its execution under the default binding. -/
theorem exec_eq (i : Instr) (s : State) : exec i s = .next (complete (execute Config.standard i s)) := by
  cases i <;> rfl

/-- Everything a running tick can do (R103, R84): raise at the fetch, raise at decode, or execute. -/
theorem runningTick_cases (cfg : Config) (s : State) :
    (cfg.memSize ≤ s.pc.toNat + 1 ∧
      runningTick cfg s = raiseFatal (.fetchOutOfRange s.pc) (decrementTimer s)) ∨
    (∃ op, fetch cfg s = .ok op ∧ decode cfg op = .invalid op ∧
      runningTick cfg s = raiseFatal (.invalidOpcode op) (decrementTimer s)) ∨
    (∃ op i, fetch cfg s = .ok op ∧ decode cfg op = .instr i ∧ fetchDecode cfg s = .ok i ∧
      runningTick cfg s = complete (execute cfg i (decrementTimer s))) := by
  unfold runningTick
  rw [fetchDecode_decrementTimer]
  rcases fetchDecode_cases (cfg := cfg) (s := s) rfl with ⟨hl, h⟩ | ⟨op, hf, hd, h⟩ | ⟨op, i, hf, hd, h⟩
  · exact .inl ⟨hl, by rw [h]⟩
  · exact .inr (.inl ⟨op, hf, hd, by rw [h]⟩)
  · exact .inr (.inr ⟨op, i, hf, hd, h, by rw [h]⟩)

theorem step_running {s : State} (h : s.status = .running) : step s = .next (runningTick Config.standard s) := by
  unfold step runningTick
  rw [h]
  cases fetchDecode Config.standard (decrementTimer s) with
  | error e => rfl
  | ok i => exact exec_eq i _

theorem step_halted {s : State} {e : FatalError} (h : s.status = .halted e) : step s = .fault (.halted e) := by
  unfold step
  rw [h]

/-- A step that answers a next state started on a running core and was a tick. -/
theorem step_next {s t : State} (h : step s = .next t) :
    s.status = .running ∧ t = runningTick Config.standard s := by
  cases hs : s.status with
  | running =>
    rw [step_running hs] at h
    exact ⟨rfl, (Host.Outcome.next.inj h).symm⟩
  | halted e =>
    rw [step_halted hs] at h
    cases h

/-- A tick leaves memory and the run loop's timestamp alone (R32, R103). -/
theorem runningTick_mem (cfg : Config) (s : State) :
    (runningTick cfg s).mem = s.mem ∧ (runningTick cfg s).lastTick = s.lastTick := by
  rcases runningTick_cases cfg s with ⟨-, h⟩ | ⟨op, -, -, h⟩ | ⟨op, i, -, -, -, h⟩
  · rw [h]; exact ⟨rfl, rfl⟩
  · rw [h]; exact ⟨rfl, rfl⟩
  · rw [h]
    rcases complete_execute_cases cfg i (decrementTimer s) with
      ⟨-, h⟩ | ⟨x, y, -, h⟩ | ⟨n, -, h⟩ | ⟨n, -, -, h⟩ | ⟨n, -, -, h⟩ <;> rw [h] <;> exact ⟨rfl, rfl⟩

/-- A tick's timer is the decremented one, whatever the tick does (R88). -/
theorem runningTick_dt (cfg : Config) (s : State) : (runningTick cfg s).dt = (decrementTimer s).dt := by
  rcases runningTick_cases cfg s with ⟨-, h⟩ | ⟨op, -, -, h⟩ | ⟨op, i, -, -, -, h⟩
  · rw [h]; rfl
  · rw [h]; rfl
  · rw [h]
    rcases complete_execute_cases cfg i (decrementTimer s) with
      ⟨-, h⟩ | ⟨x, y, -, h⟩ | ⟨n, -, h⟩ | ⟨n, -, -, h⟩ | ⟨n, -, -, h⟩ <;> rw [h] <;> rfl

/-- A tick does not read the run loop's timestamp (R22). -/
theorem runningTick_stamp (cfg : Config) (s : State) (l : LastTick) :
    runningTick cfg (s.stamp l) = (runningTick cfg s).stamp l := by
  have hd : decrementTimer (s.stamp l) = (decrementTimer s).stamp l := rfl
  have hf : fetchDecode cfg ((decrementTimer s).stamp l) = fetchDecode cfg (decrementTimer s) :=
    fetchDecode_congr rfl rfl
  unfold runningTick
  rw [hd, hf]
  cases fetchDecode cfg (decrementTimer s) with
  | error e => rfl
  | ok i =>
    cases i with
    | cls => rfl
    | add x y => rfl
    | ldI nnn => rfl
    | call nnn =>
      simp only [execute]
      by_cases h : (decrementTimer s).stack.length = cfg.stackCap
      · rw [callBody_full h, callBody_full (s := (decrementTimer s).stamp l) h]
        rfl
      · rw [callBody_room h, callBody_room (s := (decrementTimer s).stamp l) h]
        rfl

theorem tick_running {cfg : Config} {s : State} (legal : cfg.Legal) (h : s.status = .running) :
    tick cfg s = .next (runningTick cfg s) := by
  unfold tick
  rw [if_pos legal, h]

/-- A tick that answers a next state ran under a legal configuration on a running core. -/
theorem tick_next {cfg : Config} {s t : State} (h : tick cfg s = .next t) :
    cfg.Legal ∧ s.status = .running ∧ t = runningTick cfg s := by
  unfold tick at h
  split at h
  · next legal =>
    split at h
    · cases h
    · next hs => exact ⟨legal, hs, (Host.Outcome.next.inj h).symm⟩
  · cases h

theorem run_halted {cfg : Config} {s : State} {e : FatalError} (h : s.status = .halted e) (samples : List Nat) :
    run cfg samples s = ⟨s, some e⟩ := by
  cases samples <;> simp only [run, State.error, h]

theorem run_cons_running {cfg : Config} {s : State} (h : s.status = .running) (now : Nat) (rest : List Nat) :
    run cfg (now :: rest) s = run cfg rest (pollOnce cfg now s) := by
  simp only [run, h]

/-- LoadProgram (R98, R82): refused with the state as it was, or the bytes copied and nothing else changed. -/
theorem loadProgram_cases (cfg : Config) (bytes : List Byte) (s : State) :
    (cfg.memSize < cfg.progBase.toNat + bytes.length ∧
      loadProgram cfg bytes s = ⟨s, some (.loadOutOfRange bytes.length)⟩) ∨
    (cfg.progBase.toNat + bytes.length ≤ cfg.memSize ∧
      loadProgram cfg bytes s =
        ⟨{ s with mem := Memory.writeBytes cfg s.mem cfg.progBase.toNat bytes }, none⟩) := by
  unfold loadProgram
  split
  · next h => exact .inl ⟨h, rfl⟩
  · next h => exact .inr ⟨by omega, rfl⟩

/-- Storing a fetch word keeps memory canonical. -/
theorem withFetchWord_mem_wf {s : State} (h : Memory.wf Config.standard s.mem) (nbits w : Nat) :
    Memory.wf Config.standard (s.withFetchWord nbits w).mem := by
  unfold State.withFetchWord
  split
  · exact h
  · next hfit =>
    refine Memory.wf_writeBytes _ h ?_
    simp only [bytesOfWord, List.length_cons, List.length_nil]
    omega

/-- One poll (R106): a tick with the sample recorded, or nothing. -/
theorem pollOnce_cases (cfg : Config) (now : Nat) (s : State) :
    (s.tickDue cfg now = true ∧ pollOnce cfg now s = (runningTick cfg s).stamp (.sampled now)) ∨
    (s.tickDue cfg now = false ∧ pollOnce cfg now s = s) := by
  unfold pollOnce
  split
  · next h => exact .inl ⟨h, runningTick_stamp cfg s _⟩
  · next h => exact .inr ⟨by simpa using h, rfl⟩

/-- The core's run unfolds by one step. -/
theorem core_run_succ (n : Nat) (s : State) :
    core.run (n + 1) s =
      match step s with
      | .next t => core.run n t
      | .fault r => .fault r
      | .refused r => .refused r := by
  simp only [Host.Core.run]
  cases h : step s with
  | next t => simp only [show core.step s = .next t from h]
  | fault r => simp only [show core.step s = .fault r from h]
  | refused r => simp only [show core.step s = .refused r from h]

theorem ticks_halted {cfg : Config} {s : State} {e : FatalError} (h : s.status = .halted e) (n : Nat) :
    ticks cfg n s = s := by
  cases n with
  | zero => rfl
  | succ n => simp only [ticks, h]

theorem ticks_succ_running {cfg : Config} {s : State} (h : s.status = .running) (n : Nat) :
    ticks cfg (n + 1) s = ticks cfg n (runningTick cfg s) := by
  simp only [ticks, h]

/-- A host call that is answered was made on an idle instance under a legal configuration (R97, R101, R4). -/
theorem withIdle_next {α : Type} {cfg : Config} {f : State → Host.Outcome α Fault Refusal} {c : CoreInstance}
    {a : α} (h : c.withIdle cfg f = .next a) : ∃ s, c = .idle s ∧ cfg.Legal ∧ f s = .next a := by
  cases c with
  | neverReset => cases h
  | inRun s => cases h
  | idle s =>
    simp only [CoreInstance.withIdle] at h
    split at h
    · next legal => exact ⟨s, rfl, legal, h⟩
    · cases h

theorem withIdle_idle {α : Type} {cfg : Config} (legal : cfg.Legal) (f : State → Host.Outcome α Fault Refusal)
    (s : State) : (CoreInstance.idle s).withIdle cfg f = f s := if_pos legal

/-- A Reset that is answered was made with no `Run()` executing, and leaves the reset state (R96, R101). -/
theorem reset_next {cfg : Config} {c d : CoreInstance} (h : c.reset cfg = .next d) :
    c.runExecuting = false ∧ cfg.Legal ∧ d = .idle (State.resetWith cfg) := by
  unfold CoreInstance.reset at h
  split at h
  · cases h
  · next hr =>
    split at h
    · next legal => exact ⟨by simpa using hr, legal, (Host.Outcome.next.inj h).symm⟩
    · cases h

/-- A Tick that is answered ran on an idle, running core, and returns the error it halted with (R79). -/
theorem instanceTick_next {cfg : Config} {c : CoreInstance} {r : CallResult} (h : c.tick cfg = .next r) :
    ∃ s, c = .idle s ∧ cfg.Legal ∧ s.status = .running ∧
      r = ⟨.idle (runningTick cfg s), (runningTick cfg s).error⟩ := by
  obtain ⟨s, hc, legal, h⟩ := withIdle_next h
  cases ht : tick cfg s with
  | next t =>
    obtain ⟨-, hr, rfl⟩ := tick_next ht
    simp only [ht] at h
    exact ⟨s, hc, legal, hr, (Host.Outcome.next.inj h).symm⟩
  | fault e => simp only [ht] at h; cases h
  | refused e => simp only [ht] at h; cases h

/-- Where `Run()` stands at a state: returned with its error, or executing on a running core. -/
theorem runReached_cases (s : State) :
    (∃ e, s.status = .halted e ∧ runReached s = ⟨.idle s, some e⟩) ∨
    (s.status = .running ∧ runReached s = ⟨.inRun s, none⟩) := by
  cases hs : s.status with
  | halted e => exact .inl ⟨e, rfl, by simp only [runReached, State.error, hs]⟩
  | running => exact .inr ⟨rfl, by simp only [runReached, State.error, hs]⟩

@[simp] theorem runReached_state (s : State) : (runReached s).after.state = some s := by
  rcases runReached_cases s with ⟨e, -, h⟩ | ⟨-, h⟩ <;> rw [h] <;> rfl

/-- Everything that can happen to an instance between two Resets: nothing where it was never reset; else its state is
kept, loaded into, or ticked once on a running core, with the sample recorded where `Run()` ticks (R98, R103, R106). -/
theorem advances_cases {cfg : Config} {c d : CoreInstance} (h : Advances cfg c d) :
    (c.state = none ∧ d.state = none) ∨
    ∃ s t, c.state = some s ∧ d.state = some t ∧
      (t = s ∨ (cfg.Legal ∧ ∃ bytes, t = (loadProgram cfg bytes s).state) ∨
        (s.status = .running ∧
          (t = runningTick cfg s ∨ ∃ now, t = (runningTick cfg s).stamp (.sampled now)))) := by
  cases h with
  | load bytes call =>
    obtain ⟨s, rfl, legal, hr⟩ := withIdle_next call
    cases hr
    exact .inr ⟨s, _, rfl, rfl, .inr (.inl ⟨legal, bytes, rfl⟩)⟩
  | tick call =>
    obtain ⟨s, rfl, -, hs, rfl⟩ := instanceTick_next call
    exact .inr ⟨s, _, rfl, rfl, .inr (.inr ⟨hs, .inl rfl⟩)⟩
  | start call =>
    obtain ⟨s, rfl, -, hr⟩ := withIdle_next call
    cases hr
    exact .inr ⟨s, s, rfl, runReached_state s, .inl rfl⟩
  | poll now =>
    cases c with
    | neverReset => exact .inl ⟨rfl, rfl⟩
    | idle s => exact .inr ⟨s, s, rfl, rfl, .inl rfl⟩
    | inRun s =>
      refine .inr ⟨s, _, rfl, runReached_state _, ?_⟩
      cases hs : s.status with
      | halted e => exact .inl (by rw [run_halted hs])
      | running =>
        rw [run_cons_running hs]
        rcases pollOnce_cases cfg now s with ⟨-, hp⟩ | ⟨-, hp⟩
        · exact .inr (.inr ⟨rfl, .inr ⟨now, by rw [hp]; rfl⟩⟩)
        · exact .inl (by rw [hp]; rfl)

/-- The error `Run()` hands back is the one its state has halted with (R79). -/
theorem run_error (cfg : Config) (samples : List Nat) (s : State) :
    (run cfg samples s).error = (run cfg samples s).state.error := by
  induction samples generalizing s with
  | nil => rfl
  | cons now rest ih =>
    cases hs : s.status with
    | halted e => simp only [run_halted hs, State.error, hs]
    | running => rw [run_cons_running hs, ih]

/-- The samples of a run may be drawn in two parts. -/
theorem run_append (cfg : Config) (first rest : List Nat) (s : State) :
    run cfg (first ++ rest) s = run cfg rest (run cfg first s).state := by
  induction first generalizing s with
  | nil => rfl
  | cons now first ih =>
    cases hs : s.status with
    | halted e => rw [run_halted hs, run_halted hs, run_halted hs]
    | running => rw [List.cons_append, run_cons_running hs, run_cons_running hs, ih]

/-- Loading sequences one after another (R98, R99): every one fits, and each is loaded in turn. -/
theorem loadAll_cons {cfg : Config} {bytes : List Byte} {rest : List (List Byte)} {s t : State}
    (h : loadAll cfg (bytes :: rest) s = some t) :
    cfg.progBase.toNat + bytes.length ≤ cfg.memSize ∧ loadAll cfg rest (loadProgram cfg bytes s).state = some t := by
  simp only [loadAll] at h
  rcases loadProgram_cases cfg bytes s with ⟨-, hl⟩ | ⟨hfit, hl⟩
  · simp only [hl] at h
    cases h
  · refine ⟨hfit, ?_⟩
    have he : (loadProgram cfg bytes s).error = none := by rw [hl]
    simpa only [he] using h

end Sys2Proof.Machine
end

