-- ==== Sys2Proof/Certificates/Slice0/Obligations.lean ====
section
/-! DEFINITION. The statements for the provers. Numbers and selectors come from the configuration wherever the spec
leaves them to it; where a statement rests on a decision of spec/92_eei_decisions.md its docstring says so. -/

open Sys2Proof Sys2Proof.Machine

/-! ### Decode and encode (spec/30_encoding.md) -/

/-- Words of spec/95_test_vectors.md section 2.1, written bit by bit from R46 and R47, decode as that table says,
under the default binding (decisions D6 to D9, log entry 1). -/
def Obligations.WrittenOutWordsDecode : Prop :=
  decode Config.standard 0b0000000000000000#16 = .instr .cls ∧
  decode Config.standard 0b0000000011100000#16 = .instr .cls ∧
  decode Config.standard 0b0000000100100100#16 = .instr (.add 1#4 2#4) ∧
  decode Config.standard 0b0000111111110100#16 = .instr (.add 15#4 15#4) ∧
  decode Config.standard 0b1010001000110100#16 = .instr (.ldI 0x234#12) ∧
  decode Config.standard 0b0010001100000000#16 = .instr (.call 0x300#12) ∧
  decode Config.standard 0b0000000011101110#16 = .invalid 0x00EE#16 ∧
  decode Config.standard 0b1000000100100100#16 = .invalid 0x8124#16

/-- R50: the two-tier dispatch, with the fields as numbers: the family is the word divided by 4096, the
sub-selector its remainder by 16, X and Y the two nibbles between, NNN the remainder by 4096. -/
def Obligations.DecodeFollowsTheTwoTiers : Prop :=
  ∀ (cfg : Config) (op : Word),
    (op.toNat / 4096 = 0 → op.toNat % 16 = cfg.addSub.toNat →
      ∃ x y : Nibble, x.toNat = op.toNat / 256 % 16 ∧ y.toNat = op.toNat / 16 % 16 ∧
        decode cfg op = .instr (.add x y)) ∧
    (op.toNat / 4096 = 0 → op.toNat % 16 ≠ cfg.addSub.toNat → op.toNat % 16 = cfg.clsSub.toNat →
      decode cfg op = .instr .cls) ∧
    (op.toNat / 4096 = 0 → op.toNat % 16 ≠ cfg.addSub.toNat → op.toNat % 16 ≠ cfg.clsSub.toNat →
      decode cfg op = .invalid op) ∧
    (op.toNat / 4096 ≠ 0 → op.toNat / 4096 = cfg.setiFam.toNat →
      ∃ nnn : Imm12, nnn.toNat = op.toNat % 4096 ∧ decode cfg op = .instr (.ldI nnn)) ∧
    (op.toNat / 4096 ≠ 0 → op.toNat / 4096 ≠ cfg.setiFam.toNat → op.toNat / 4096 = cfg.callFam.toNat →
      ∃ nnn : Imm12, nnn.toNat = op.toNat % 4096 ∧ decode cfg op = .instr (.call nnn)) ∧
    (op.toNat / 4096 ≠ 0 → op.toNat / 4096 ≠ cfg.setiFam.toNat → op.toNat / 4096 ≠ cfg.callFam.toNat →
      decode cfg op = .invalid op)

/-- R52 and R53 under the default binding (decisions D6 to D9, log entry 1): the accepted words are exactly those of
the four match and mask rows of spec/opcode_table.json, and every other word is invalid. -/
def Obligations.AcceptedWordsAreTheTableRows : Prop :=
  ∀ op : Word,
    (op &&& 0xF00F#16 = 0x0000#16 ↔ decode Config.standard op = .instr .cls) ∧
    (op &&& 0xF00F#16 = 0x0004#16 ↔ ∃ x y, decode Config.standard op = .instr (.add x y)) ∧
    (op &&& 0xF000#16 = 0xA000#16 ↔ ∃ nnn, decode Config.standard op = .instr (.ldI nnn)) ∧
    (op &&& 0xF000#16 = 0x2000#16 ↔ ∃ nnn, decode Config.standard op = .instr (.call nnn)) ∧
    ((op &&& 0xF00F#16 ≠ 0x0000#16 ∧ op &&& 0xF00F#16 ≠ 0x0004#16 ∧ op &&& 0xF000#16 ≠ 0xA000#16 ∧
      op &&& 0xF000#16 ≠ 0x2000#16) ↔ decode Config.standard op = .invalid op)

/-- Decode and encode agree on every instruction with every operand, under every legal configuration. -/
def Obligations.DecodeOfEncodeIsTheInstruction : Prop :=
  ∀ (cfg : Config) (i : Instr), cfg.Legal → decode cfg (encode cfg i) = .instr i

/-- R51: a decoded word is the encoding of its instruction, except that CLS ignores bits 11 to 4, which the encoder
leaves zero: that they are ignored is decision D23, that they are written as zeros is R55's assembler, decision D14
(log entry 19). -/
def Obligations.EncodeOfDecodeIsTheWord : Prop :=
  ∀ (cfg : Config) (op : Word) (i : Instr), decode cfg op = .instr i →
    (i ≠ .cls → encode cfg i = op) ∧ (i = .cls → encode cfg i = op &&& 0xF00F#16)

/-- Two bytes an instruction, high byte first (R34, R45): the byte decoder reads an encoded instruction off the head
of any byte sequence and leaves the rest, and refuses fewer than two bytes. -/
def Obligations.ByteStreamHeadDecodes : Prop :=
  ∀ (cfg : Config) (i : Instr) (rest : List Byte), cfg.Legal →
    (∃ hi lo : Byte, encodeBytes cfg i = [hi, lo] ∧ (encode cfg i).toNat = 256 * hi.toNat + lo.toNat) ∧
    decodeBytes cfg (encodeBytes cfg i ++ rest) = .ok (i, rest) ∧
    ∀ b : Byte, decodeBytes cfg [b] = .error .truncated

/-- The assembler text of an item (R55, R56; decision D14, log entry 21) reads back as that item. -/
def Obligations.AssemblerTextReadsBack : Prop :=
  ∀ item : AsmItem, parseLine (asmText item) = some [item]

/-! ### Fetch (spec/20_memory.md) -/

/-- R34: of the two bytes of a fetched word, the one at the lower address is bits 15 to 8. That it holds at odd and
even PCs alike is R37, decision D15 (log entry 18). -/
def Obligations.FetchIsBigEndian : Prop :=
  ∀ (cfg : Config) (s : State), s.pc.toNat + 1 < cfg.memSize →
    ∃ op, fetch cfg s = .ok op ∧ op.toNat / 256 = (s.byteAt cfg s.pc.toNat).toNat ∧
      op.toNat % 256 = (s.byteAt cfg (s.pc.toNat + 1)).toNat

/-- R36, R81: a fetch outside memory halts the core with the PC as payload; only the timer's decrement stays.
The fault is decision D12 and the halted state decisions D18 and D25 (log entries 4, 7, 10). -/
def Obligations.FetchOutOfRangeHalts : Prop :=
  ∀ s : State, s.status = .running → Config.standard.memSize ≤ s.pc.toNat + 1 →
    step s = .next { s with dt := (if s.dt = 0#8 then 0#8 else s.dt - 1#8),
                            status := .halted (.fetchOutOfRange s.pc) }

/-- R54, R78: an invalid word halts the core with the word as payload; only the timer's decrement stays.
The halted state is decisions D18 and D25 (log entries 4, 10). -/
def Obligations.InvalidWordHalts : Prop :=
  ∀ (s : State) (op : Word), s.status = .running → s.pc.toNat + 1 < Config.standard.memSize →
    op.toNat = 256 * (s.byteAt Config.standard s.pc.toNat).toNat +
      (s.byteAt Config.standard (s.pc.toNat + 1)).toNat →
    decode Config.standard op = .invalid op →
    step s = .next { s with dt := (if s.dt = 0#8 then 0#8 else s.dt - 1#8),
                            status := .halted (.invalidOpcode op) }

/-! ### The instructions: results -/

/-- R60. ADD has its encoding under every legal configuration, and completes on every state: the sum modulo 256 in
V[X], the carry 1 exactly when the sum exceeds 255, the PC advanced by 2. -/
def Obligations.AddResult : Prop :=
  ∀ (x y : Nibble) (s : State),
    (∀ cfg : Config, cfg.Legal → decode cfg (fieldsWord 0#4 x y cfg.addSub) = .instr (.add x y)) ∧
    ∃ t, exec (.add x y) s = .next t ∧
      (readV x t).toNat = ((readV x s).toNat + (readV y s).toNat) % 256 ∧
      t.carry = (if 255 < (readV x s).toNat + (readV y s).toNat then 0x01#8 else 0x00#8) ∧
      (s.pc.toNat + 2 < 65536 → t.pc.toNat = s.pc.toNat + 2)

/-- R61: the carry is the ninth bit of the true sum. -/
def Obligations.AddCarryIsTheNinthBit : Prop :=
  ∀ (x y : Nibble) (s : State), ∃ t, exec (.add x y) s = .next t ∧
    t.carry.toNat = ((readV x s).toNat + (readV y s).toNat) / 256 ∧
    256 * t.carry.toNat + (readV x t).toNat = (readV x s).toNat + (readV y s).toNat

/-- R62. Every family-zero word with the clear sub-selector is CLS, and CLS completes on every state: one more
ClearScreen event, the PC advanced by 2, nothing else changed. That the display's clear returns is decision D20 (log entry 6). -/
def Obligations.ClsResult : Prop :=
  ∀ s : State,
    (∀ (cfg : Config) (x y : Nibble), cfg.Legal → decode cfg (fieldsWord 0#4 x y cfg.clsSub) = .instr .cls) ∧
    ∃ t, exec .cls s = .next t ∧ t.trace = s.trace ++ [.clearScreen] ∧
      t = { s with trace := t.trace, pc := t.pc } ∧
      (s.pc.toNat + 2 < 65536 → t.pc.toNat = s.pc.toNat + 2)

/-- R65. LD I has its encoding under every legal configuration, and completes on every state: the index is NNN
whatever it was, the PC advanced by 2, nothing else changed. -/
def Obligations.LdIResult : Prop :=
  ∀ (nnn : Imm12) (s : State),
    (∀ cfg : Config, cfg.Legal → decode cfg (immWord cfg.setiFam nnn) = .instr (.ldI nnn)) ∧
    ∃ t, exec (.ldI nnn) s = .next t ∧ t.index.toNat = nnn.toNat ∧
      t = { s with index := t.index, pc := t.pc } ∧
      (s.pc.toNat + 2 < 65536 → t.pc.toNat = s.pc.toNat + 2)

/-- R70. CALL has its encoding under every legal configuration. With room on the stack it completes: its own address
becomes the top of the stack, the PC is NNN and is not advanced, nothing else changes. On a full stack its execution raises StackOverflow
with nothing written. -/
def Obligations.CallResult : Prop :=
  ∀ (nnn : Imm12) (s : State),
    (∀ cfg : Config, cfg.Legal → decode cfg (immWord cfg.callFam nnn) = .instr (.call nnn)) ∧
    (s.stack.length ≠ Config.standard.stackCap →
      ∃ t, exec (.call nnn) s = .next t ∧ t.stack = s.stack ++ [s.pc] ∧ t.pc.toNat = nnn.toNat ∧
        t = { s with stack := t.stack, pc := t.pc }) ∧
    (∀ cfg : Config, s.stack.length ≠ cfg.stackCap →
      ∃ t, execute cfg (.call nnn) s = .returned false t ∧ t.stack = s.stack ++ [s.pc] ∧
        t.pc.toNat = nnn.toNat) ∧
    (∀ cfg : Config, s.stack.length = cfg.stackCap →
      execute cfg (.call nnn) s = .raised .stackOverflow s)

/-- R76, R80: a CALL on a full stack halts the core, the stack and the PC as they were. The halted state is
decisions D18 and D25 (log entries 4, 10). -/
def Obligations.CallOnFullStackHalts : Prop :=
  ∀ (nnn : Imm12) (s : State), s.stack.length = Config.standard.stackCap →
    exec (.call nnn) s = .next { s with status := .halted .stackOverflow }

/-- R16, R23, R70, R104: execution returns the advance signal for ADD, CLS and LD I and withholds it for CALL; only CALL
raises, and then with the state as it was. -/
def Obligations.OnlyCallWithholdsTheAdvance : Prop :=
  ∀ (cfg : Config) (i : Instr) (s : State),
    (∀ adv t, execute cfg i s = .returned adv t → (adv = true ↔ ∀ nnn, i ≠ .call nnn)) ∧
    (∀ e t, execute cfg i s = .raised e t → (∃ nnn, i = .call nnn) ∧ e = .stackOverflow ∧ t = s)

/-! ### The instructions: frames -/

/-- ADD (R60) leaves alone every register but V[X], the index, the stack, the timer, the status, the timestamp, the
trace and every byte of memory. -/
def Obligations.AddFrame : Prop :=
  ∀ (x y : Nibble) (s t : State), exec (.add x y) s = .next t →
    (∀ z, z ≠ x → readV z t = readV z s) ∧ t.index = s.index ∧ t.stack = s.stack ∧ t.dt = s.dt ∧
    t.status = s.status ∧ t.lastTick = s.lastTick ∧ t.trace = s.trace ∧
    ∀ (cfg : Config) (a : Nat), t.byteAt cfg a = s.byteAt cfg a

/-- CLS (R62) leaves alone every register, the carry, the index, the stack, the timer, the status, the timestamp and
every byte of memory. -/
def Obligations.ClsFrame : Prop :=
  ∀ s t : State, exec .cls s = .next t →
    (∀ z, readV z t = readV z s) ∧ t.carry = s.carry ∧ t.index = s.index ∧ t.stack = s.stack ∧ t.dt = s.dt ∧
    t.status = s.status ∧ t.lastTick = s.lastTick ∧
    ∀ (cfg : Config) (a : Nat), t.byteAt cfg a = s.byteAt cfg a

/-- LD I (R65) leaves alone every register, the carry, the stack, the timer, the status, the timestamp, the trace and
every byte of memory. -/
def Obligations.LdIFrame : Prop :=
  ∀ (nnn : Imm12) (s t : State), exec (.ldI nnn) s = .next t →
    (∀ z, readV z t = readV z s) ∧ t.carry = s.carry ∧ t.stack = s.stack ∧ t.dt = s.dt ∧
    t.status = s.status ∧ t.lastTick = s.lastTick ∧ t.trace = s.trace ∧
    ∀ (cfg : Config) (a : Nat), t.byteAt cfg a = s.byteAt cfg a

/-- CALL (R70) leaves alone every register, the carry, the index, the timer, the timestamp, the trace and every byte
of memory; with room it leaves the status, on a full stack the PC and the stack: that nothing is rolled back or written there is
decision D25 (log entry 10), and that such a CALL answers a next state is log entry 4. -/
def Obligations.CallFrame : Prop :=
  ∀ (nnn : Imm12) (s t : State), exec (.call nnn) s = .next t →
    (∀ z, readV z t = readV z s) ∧ t.carry = s.carry ∧ t.index = s.index ∧ t.dt = s.dt ∧
    t.lastTick = s.lastTick ∧ t.trace = s.trace ∧
    (s.stack.length ≠ Config.standard.stackCap → t.status = s.status) ∧
    (s.stack.length = Config.standard.stackCap → t.pc = s.pc ∧ t.stack = s.stack) ∧
    ∀ (cfg : Config) (a : Nat), t.byteAt cfg a = s.byteAt cfg a

/-! ### The stack primitives (spec/42_call_and_stack.md) -/

/-- R68: Push raises StackOverflow on a full stack; otherwise it appends, the value becomes the top, and nothing
else changes. -/
def Obligations.PushAppendsOrOverflows : Prop :=
  ∀ (cfg : Config) (w : Word) (s : State),
    (s.stack.length = cfg.stackCap → push cfg w s = .error .stackOverflow) ∧
    (s.stack.length ≠ cfg.stackCap →
      ∃ t, push cfg w s = .ok t ∧ t.stack.getLast? = some w ∧ t = { s with stack := s.stack ++ [w] })

/-- R69: Pop raises StackUnderflow on an empty stack; otherwise it removes and returns the last value. It undoes a
push, and no instruction pops: each leaves the old stack at the bottom of the new one. -/
def Obligations.PopUndoesPush : Prop :=
  ∀ s : State,
    (s.stack = [] → pop s = .error .stackUnderflow) ∧
    (∀ below w, s.stack = below ++ [w] → pop s = .ok (w, { s with stack := below })) ∧
    (∀ cfg w t, push cfg w s = .ok t → pop t = .ok (w, s)) ∧
    (∀ i t, exec i s = .next t → s.stack <+: t.stack)

/-! ### Timer, ticks and errors (spec/60_exceptions.md, spec/70_reset_and_hazards.md) -/

/-- R88, under every legal configuration: every tick of a running core lowers the timer by one, floored at zero, a tick
that raises included; a `Run()` of a halted core does not. The step does the same under the default binding. That a
tick which raises answers a next state is log entry 4 (decision D18), that its decrement stays is decision D25 (log
entry 10). -/
def Obligations.TimerDropsOnceATick : Prop :=
  ∀ s : State,
    (∀ cfg : Config, cfg.Legal → s.status = .running →
      ∃ t, tick cfg s = .next t ∧ t.dt.toNat = s.dt.toNat - 1) ∧
    (s.status = .running → ∃ t, step s = .next t ∧ t.dt.toNat = s.dt.toNat - 1) ∧
    (∀ e cfg samples, s.status = .halted e → (run cfg samples s).state.dt = s.dt)

/-- R107, E11: n ticks without a fatal error perform n timer decrements, floored at zero. Counting ticks, not time, is
decision D21 (log entry 11). -/
def Obligations.NTicksDropTheTimerNTimes : Prop :=
  ∀ (cfg : Config) (n : Nat) (s : State), RunsSafely cfg n s → (ticks cfg n s).dt.toNat = s.dt.toNat - n

/-- R103: where the two bytes at the PC decode to an instruction, the step is that instruction's execution on the
state with the timer lowered (R88). The PC is the instruction's own address while it executes (R15). -/
def Obligations.StepRunsTheDecodedInstruction : Prop :=
  ∀ (s : State) (i : Instr), s.status = .running → s.pc.toNat + 1 < Config.standard.memSize →
    decode Config.standard (wordOfBytes (s.byteAt Config.standard s.pc.toNat)
      (s.byteAt Config.standard (s.pc.toNat + 1))) = .instr i →
    step s = exec i { s with dt := if s.dt = 0#8 then 0#8 else s.dt - 1#8 }

/-- R85: a step answers a next state exactly when the core is running; a halted core stops with the error it halted
with. Keeping the halt is decision D18 (log entry 4). -/
def Obligations.StepAnswersExactlyWhenRunning : Prop :=
  ∀ s : State, (s.status = .running ↔ ∃ t, step s = .next t) ∧
    ∀ e, s.status = .halted e ↔ step s = .fault (.halted e)

/-- R84: the checks of a tick run in the order fetch bound, decode, push, and the first that fails is the one error.
The halted status is decision D18 (log entry 4). -/
def Obligations.TickErrorsComeInOrder : Prop :=
  ∀ (cfg : Config) (s : State), cfg.Legal → s.status = .running →
    ∃ t, tick cfg s = .next t ∧
      (cfg.memSize ≤ s.pc.toNat + 1 → t.status = .halted (.fetchOutOfRange s.pc)) ∧
      (s.pc.toNat + 1 < cfg.memSize → ∀ op : Word,
        op = wordOfBytes (s.byteAt cfg s.pc.toNat) (s.byteAt cfg (s.pc.toNat + 1)) →
        (decode cfg op = .invalid op → t.status = .halted (.invalidOpcode op)) ∧
        (∀ nnn, decode cfg op = .instr (.call nnn) → s.stack.length = cfg.stackCap →
          t.status = .halted .stackOverflow) ∧
        (∀ i, decode cfg op = .instr i → (∀ nnn, i = .call nnn → s.stack.length ≠ cfg.stackCap) →
          t.status = .running))

/-- R80, R83, R108: a tick that raises changes nothing but the timer and the status, and its error is one of codes
1, 3 and 4. That earlier writes stay and later ones do not happen is decision D25, the halted status decision D18 (log
entries 4, 10). -/
def Obligations.RaisingTickKeepsOnlyTheDecrement : Prop :=
  ∀ (cfg : Config) (s t : State) (e : FatalError), tick cfg s = .next t → t.status = .halted e →
    t = { s with dt := (if s.dt = 0#8 then 0#8 else s.dt - 1#8), status := .halted e } ∧
    (e.code = 1 ∨ e.code = 3 ∨ e.code = 4)

/-- R16, R104: after a tick that executed anything but a CALL the PC is 2 further modulo 2^16, and with at most 65535
bytes of memory it does not wrap; a tick that raised leaves the PC. The modulus is decision D16 (log entry 9), that a
raising tick is a next state with the PC kept is decisions D18 and D25 (log entries 4, 10). -/
def Obligations.PcAdvancesByTwoOrStays : Prop :=
  ∀ (cfg : Config) (s t : State), cfg.Legal → tick cfg s = .next t →
    (∀ e, t.status = .halted e → t.pc = s.pc) ∧
    (∀ i, fetchDecode cfg s = .ok i → (∀ nnn, i ≠ .call nnn) →
      t.pc.toNat = (s.pc.toNat + 2) % 65536 ∧
      (cfg.memSize ≤ 65535 → t.pc.toNat = s.pc.toNat + 2 ∧ t.pc.toNat ≤ cfg.memSize))

/-- R110: after a CALL the next tick fetches at the CALL's target; no instruction in between is executed. -/
def Obligations.NextFetchAfterCallIsAtItsTarget : Prop :=
  ∀ (s : State) (nnn : Imm12), s.status = .running → fetchDecode Config.standard s = .ok (.call nnn) →
    s.stack.length ≠ Config.standard.stackCap → nnn.toNat + 1 < Config.standard.memSize →
    ∃ t, step s = .next t ∧ t.status = .running ∧
      fetch Config.standard t = .ok (wordOfBytes (s.byteAt Config.standard nnn.toNat)
        (s.byteAt Config.standard (nnn.toNat + 1)))

/-! ### Reset, load and launch -/

/-- R25: every state element after Reset, under every configuration. The Running status is decision D18, the empty
trace the model's reading (log entries 4, 5). -/
def Obligations.ResetLeavesEveryElement : Prop :=
  ∀ cfg : Config,
    (∀ x, readV x (State.resetWith cfg) = 0x00#8) ∧ (State.resetWith cfg).carry = 0x00#8 ∧
    (State.resetWith cfg).index = 0x0000#16 ∧ (State.resetWith cfg).pc = cfg.progBase ∧
    (State.resetWith cfg).stack = [] ∧ (State.resetWith cfg).dt = 0x00#8 ∧
    (∀ k, k < cfg.fontLen →
      (State.resetWith cfg).byteAt cfg (cfg.fontBase.toNat + k) = cfg.fontTable.getD k 0x00#8) ∧
    (∀ a, a < cfg.fontBase.toNat ∨ cfg.fontBase.toNat + cfg.fontLen ≤ a →
      (State.resetWith cfg).byteAt cfg a = 0x00#8) ∧
    (State.resetWith cfg).status = .running ∧ (State.resetWith cfg).lastTick = .never ∧
    (State.resetWith cfg).trace = []

/-- R96: the result of Reset does not depend on the state before it, and earlier programs, stacks and errors are
gone. It holds before the first Reset and in every state afterwards; a Reset inside an executing `Run()` is no host
call at all (R101, HostCallsWaitForRunToReturn). -/
def Obligations.ResetForgetsThePast : Prop :=
  ∀ (cfg : Config) (c d : CoreInstance), cfg.Legal → c.runExecuting = false → d.runExecuting = false →
    c.reset cfg = d.reset cfg ∧
    ∃ s, c.reset cfg = .next (.idle s) ∧ s.stack = [] ∧ s.error = none ∧
      ∀ a, cfg.progBase.toNat ≤ a → s.byteAt cfg a = 0x00#8

/-- R97 and R4: before the first Reset Tick, Run, LoadProgram and the host's reads are refused, and under an illegal
configuration they and Reset are. The first is decision D19 (log entry 13). -/
def Obligations.NothingRunsUnresetOrIllegal : Prop :=
  ∀ (cfg : Config) (bytes : List Byte) (samples : List Nat) (a : Nat) (s : State),
    CoreInstance.neverReset.tick cfg = .refused .neverReset ∧
    CoreInstance.neverReset.loadProgram cfg bytes = .refused .neverReset ∧
    CoreInstance.neverReset.run cfg samples = .refused .neverReset ∧
    CoreInstance.neverReset.view cfg = .refused .neverReset ∧
    CoreInstance.neverReset.readByte cfg a = .refused .neverReset ∧
    (¬ cfg.Legal →
      (CoreInstance.idle s).tick cfg = .refused .illegalConfig ∧
      (CoreInstance.idle s).loadProgram cfg bytes = .refused .illegalConfig ∧
      (CoreInstance.idle s).run cfg samples = .refused .illegalConfig ∧
      (CoreInstance.idle s).view cfg = .refused .illegalConfig ∧
      (CoreInstance.idle s).readByte cfg a = .refused .illegalConfig ∧
      (CoreInstance.idle s).reset cfg = .refused .illegalConfig ∧
      CoreInstance.neverReset.reset cfg = .refused .illegalConfig)

/-- R101: while `Run()` executes, no host operation happens: each is refused. The exclusion is decision D24, its form
log entry 20. -/
def Obligations.HostCallsWaitForRunToReturn : Prop :=
  ∀ (cfg : Config) (bytes : List Byte) (samples : List Nat) (p : Preset) (a : Nat) (c : CoreInstance),
    c.runExecuting = true →
    c.reset cfg = .refused .runExecuting ∧ c.loadProgram cfg bytes = .refused .runExecuting ∧
    c.tick cfg = .refused .runExecuting ∧ c.run cfg samples = .refused .runExecuting ∧
    c.preset cfg p = .refused .runExecuting ∧ c.view cfg = .refused .runExecuting ∧
    c.readByte cfg a = .refused .runExecuting

/-- R101, R106, R79: a `Run()` that has drawn some samples is executing exactly until it has returned an error, and one
more sample reaches it exactly while it executes. The form is log entries 12 and 20. -/
def Obligations.RunExecutesUntilItReturnsAnError : Prop :=
  ∀ (cfg : Config) (samples : List Nat) (now : Nat) (s : State), cfg.Legal →
    ∃ r, (CoreInstance.idle s).run cfg samples = .next r ∧
      (r.after.runExecuting = true ↔ r.error = none) ∧
      (∀ e, r.error = some e ↔ ∃ t, r.after = .idle t ∧ t.status = .halted e) ∧
      (r.error = none → (CoreInstance.idle s).run cfg (samples ++ [now]) = .next (r.after.poll cfg now)) ∧
      (r.error ≠ none → (CoreInstance.idle s).run cfg (samples ++ [now]) = .next r)

/-- R100: after Reset and loads that all fit, the core runs from `PROG_BASE` with a canonical state; there is a launch
exactly when every load fits. That a load which does not fit leaves no launch is the model's choice after D13 (log
entry 8). -/
def Obligations.LaunchStartsAtTheProgramBase : Prop :=
  ∀ (cfg : Config) (loads : List (List Byte)), cfg.Legal →
    ((∃ s, canonicalLaunch cfg loads = some s) ↔
      ∀ bytes ∈ loads, cfg.progBase.toNat + bytes.length ≤ cfg.memSize) ∧
    ∀ s, canonicalLaunch cfg loads = some s →
      s.pc = cfg.progBase ∧ s.status = .running ∧ s.stack = [] ∧ s.Canonical cfg

/-- R98, R82: bytes that fit read back at `PROG_BASE`; bytes that do not fit are refused with the state as it was.
The refusal is decision D13 (log entry 8). -/
def Obligations.LoadProgramCopiesOrRefuses : Prop :=
  ∀ (cfg : Config) (bytes : List Byte) (s : State), Memory.wf cfg s.mem →
    (cfg.progBase.toNat + bytes.length ≤ cfg.memSize →
      (loadProgram cfg bytes s).error = none ∧
      ∀ k, k < bytes.length →
        (loadProgram cfg bytes s).state.byteAt cfg (cfg.progBase.toNat + k) = bytes.getD k 0x00#8) ∧
    (cfg.memSize < cfg.progBase.toNat + bytes.length →
      loadProgram cfg bytes s = ⟨s, some (.loadOutOfRange bytes.length)⟩)

/-- R99: LoadProgram changes no state but the bytes it copies to; an empty load changes nothing, a later load
overwrites an earlier one, and the font region is not written. -/
def Obligations.LoadProgramChangesOnlyItsBytes : Prop :=
  ∀ (cfg : Config) (bytes : List Byte) (s : State), cfg.Legal → Memory.wf cfg s.mem →
    (loadProgram cfg bytes s).state = { s with mem := (loadProgram cfg bytes s).state.mem } ∧
    (∀ a, a < cfg.progBase.toNat ∨ cfg.progBase.toNat + bytes.length ≤ a →
      (loadProgram cfg bytes s).state.byteAt cfg a = s.byteAt cfg a) ∧
    loadProgram cfg [] s = ⟨s, none⟩ ∧
    (∀ first k, cfg.progBase.toNat + bytes.length ≤ cfg.memSize → k < bytes.length →
      (loadProgram cfg bytes (loadProgram cfg first s).state).state.byteAt cfg (cfg.progBase.toNat + k) =
        bytes.getD k 0x00#8) ∧
    (s.FontHeld cfg → (loadProgram cfg bytes s).state.FontHeld cfg)

/-- R28 (b): a test launch inside the limits sets the six elements and nothing else; outside the limits there is
none. Decision D22; that it is stated of every state, not only of one after Reset and LoadProgram, is the model's choice
(log entry 16). -/
def Obligations.TestLaunchSetsSixElements : Prop :=
  ∀ (cfg : Config) (p : Preset) (s : State),
    (p.stack.length ≤ cfg.stackCap → p.carry.toNat ≤ 1 →
      ∃ t, testLaunch cfg p s = some t ∧ (∀ x, readV x t = p.v[x.toNat]'(x.isLt)) ∧ t.carry = p.carry ∧
        t.index = p.index ∧ t.pc = p.pc ∧ t.stack = p.stack ∧ t.dt = p.dt ∧ t.mem = s.mem ∧
        t.status = s.status ∧ t.lastTick = s.lastTick ∧ t.trace = s.trace) ∧
    (cfg.stackCap < p.stack.length ∨ 1 < p.carry.toNat → testLaunch cfg p s = none)

/-! ### The run loop -/

/-- R106: at a clock sample the run loop ticks, recording the sample, when it has never ticked or a tick period has
passed since the last tick, and only polls again otherwise; a halted core returns its error at once (R85). That the
sampled time is recorded is decision D21 (log entry 11); the list of samples is log entry 12. -/
def Obligations.RunTicksExactlyWhenDue : Prop :=
  ∀ (cfg : Config) (now : Nat) (rest : List Nat) (s : State),
    (s.status = .running → s.lastTick = .never →
      run cfg (now :: rest) s = run cfg rest (runningTick cfg (s.stamp (.sampled now)))) ∧
    (∀ last, s.status = .running → s.lastTick = .sampled last →
      (cfg.tickPeriod : Int) ≤ (now : Int) - (last : Int) →
      run cfg (now :: rest) s = run cfg rest (runningTick cfg (s.stamp (.sampled now)))) ∧
    (∀ last, s.status = .running → s.lastTick = .sampled last →
      (now : Int) - (last : Int) < (cfg.tickPeriod : Int) →
      run cfg (now :: rest) s = run cfg rest s) ∧
    (∀ e, s.status = .halted e → run cfg (now :: rest) s = ⟨s, some e⟩)

/-- R107: whatever the clock shows, what `Run()` has done is a number of ticks, but for its own timestamp. The
reading is decision D21 (log entry 11); that `Run()` is given by the list of samples drawn is log entry 12. -/
def Obligations.RunIsASequenceOfTicks : Prop :=
  ∀ (cfg : Config) (samples : List Nat) (s : State),
    ∃ k, k ≤ samples.length ∧
      (run cfg samples s).state.stamp s.lastTick = ticks cfg k s ∧
      (run cfg samples s).error = (ticks cfg k s).error

/-- E11, R107: clock samples a tick period apart tick once each. Decision D21 (log entry 11); the list of samples is log
entry 12. -/
def Obligations.SamplesAPeriodApartTickOnceEach : Prop :=
  ∀ (cfg : Config) (samples : List Nat) (s : State), s.lastTick = .never →
    samples.Pairwise (fun a b => a + cfg.tickPeriod ≤ b) →
    (run cfg samples s).state.stamp s.lastTick = ticks cfg samples.length s

/-- R108: with at most 65535 bytes of memory every run ends, within the CALLs the stack has room for and
`MEM_SIZE / 2 + 1` advances between them, in Halted(e) with code 1, 3 or 4. It rests on the fetch bound of decision
D12 (log entry 7, unsafe for such a claim) and on the halt of decision D18 (log entry 4). -/
def Obligations.EveryRunEnds : Prop :=
  ∀ (cfg : Config) (s : State), cfg.Legal → cfg.memSize ≤ 65535 → s.status = .running →
    s.stack.length ≤ cfg.stackCap →
    ∃ n e, n ≤ (cfg.stackCap + 1) * (cfg.memSize / 2 + 2) ∧ (ticks cfg n s).status = .halted e ∧
      (e.code = 1 ∨ e.code = 3 ∨ e.code = 4)

/-- R108, R16: with 65536 bytes of memory a run need not end: where every word decodes to CLS the PC wraps and no
tick raises. The wrap is decision D16 (log entry 9). -/
def Obligations.ClsEverywhereRunsForever : Prop :=
  ∀ (cfg : Config) (s : State), cfg.memSize = 65536 → s.status = .running → s.pc.toNat % 2 = 0 →
    (∀ w : Word, w.toNat % 2 = 0 → fetchDecode cfg { s with pc := w } = .ok .cls) →
    ∀ n, RunsSafely cfg n s ∧ (ticks cfg n s).pc.toNat = (s.pc.toNat + 2 * n) % 65536

/-! ### Invariants and whole-machine rules -/

/-- The state after Reset meets the invariants of R26. -/
def Obligations.ResetMeetsTheInvariants : Prop :=
  ∀ cfg : Config, (State.resetWith cfg).Canonical cfg

/-- Under every legal configuration a tick, a load and a run keep a state well formed, from every well-formed state:
canonical memory, a stack within capacity (R18), a carry bit (R13), a halt only with code 1, 3 or 4 (R108). So does a
step. -/
def Obligations.StepKeepsWellFormedness : Prop :=
  (∀ s t : State, s.WF Config.standard → step s = .next t → t.WF Config.standard) ∧
  ∀ (cfg : Config) (s : State), cfg.Legal → s.WF cfg →
    (∀ t, tick cfg s = .next t → t.WF cfg) ∧
    (∀ bytes, (loadProgram cfg bytes s).state.WF cfg) ∧
    (∀ samples, (run cfg samples s).state.WF cfg)

/-- Under every legal configuration a tick, a load and a run keep the invariants of R26, from every state that meets
them. So does a step. -/
def Obligations.StepKeepsTheCanonicalInvariant : Prop :=
  (∀ s t : State, s.Canonical Config.standard → step s = .next t → t.Canonical Config.standard) ∧
  ∀ (cfg : Config) (s : State), cfg.Legal → s.Canonical cfg →
    (∀ t, tick cfg s = .next t → t.Canonical cfg) ∧
    (∀ bytes, (loadProgram cfg bytes s).state.Canonical cfg) ∧
    (∀ samples, (run cfg samples s).state.Canonical cfg)

/-- R26: the state of every instance reached through Reset, LoadProgram, Tick and `Run()` meets its invariants, and
every stack entry is a PC value that held a CALL, under every legal configuration. The CALL is the instance's own: with
no Reset since, it stood at the entry's address, the stack below the entry was the whole stack, and one tick appended
the entry to it. -/
def Obligations.ReachableStatesMeetTheInvariants : Prop :=
  ∀ (cfg : Config) (c : CoreInstance) (s : State), cfg.Legal → Reachable cfg c → c.state = some s →
    s.Canonical cfg ∧
    ∀ (below : List Word) (a : Word) (above : List Word), s.stack = below ++ a :: above →
      ∃ (d e : CoreInstance) (u t : State), Reachable cfg d ∧ d.state = some u ∧ u.AtCall cfg ∧ u.pc = a ∧
        u.stack = below ∧ Advances cfg d e ∧ e.state = some t ∧ t.stack = below ++ [a] ∧ LeadsTo cfg e c

/-- R32, R41: no step changes a byte of memory, so a program cannot modify its own code; nor does a step write the
run loop's timestamp (R103). -/
def Obligations.StepsNeverWriteMemory : Prop :=
  ∀ s t : State, step s = .next t →
    t.lastTick = s.lastTick ∧ ∀ (cfg : Config) (a : Nat), t.byteAt cfg a = s.byteAt cfg a

/-- R12, R14, R17, R18, R89: a step changes a register or the carry only for an ADD, the index only for an LD I, the
stack only for a CALL, and the trace only for a CLS. -/
def Obligations.EachElementHasOneWriter : Prop :=
  ∀ s t : State, step s = .next t →
    ((∃ z, readV z t ≠ readV z s) ∨ t.carry ≠ s.carry →
      ∃ x y, fetchDecode Config.standard s = .ok (.add x y)) ∧
    (t.index ≠ s.index → ∃ nnn, fetchDecode Config.standard s = .ok (.ldI nnn)) ∧
    (t.stack ≠ s.stack → ∃ nnn, fetchDecode Config.standard s = .ok (.call nnn)) ∧
    (t.trace ≠ s.trace → fetchDecode Config.standard s = .ok .cls)

/-- R12: only ADD reads general registers. Any other instruction does the same whatever the registers hold.
That a CALL on a full stack answers a next state, the halted one, is decision D18 (log entry 4). -/
def Obligations.OnlyAddReadsRegisters : Prop :=
  ∀ (i : Instr) (s : State) (v : Vector Byte 16), (∀ x y, i ≠ .add x y) →
    ∃ t, exec i s = .next t ∧ exec i { s with v := v } = .next { t with v := v }

/-- R14, R17, R19, R22: no instruction reads the carry, the index, the timer, the timestamp or the trace. Whatever these
five hold, a step leaves the same registers, PC, stack, memory and status; it writes the same carry where it is an ADD
and the same index where it is an LD I, and appends the same events; and each of the five is otherwise carried over from
its own old value, the timer lowered by the tick (R88). That every running state steps to a next state is log entry
4. -/
def Obligations.FiveElementsReachOnlyThemselves : Prop :=
  ∀ (s : State) (c d : Byte) (ix : Word) (l : LastTick) (tr : List Event), s.status = .running →
    ∃ t u, step s = .next t ∧
      step { s with carry := c, index := ix, dt := d, lastTick := l, trace := tr } = .next u ∧
      u.v = t.v ∧ u.pc = t.pc ∧ u.stack = t.stack ∧ u.mem = t.mem ∧ u.status = t.status ∧
      (∀ x y, fetchDecode Config.standard s = .ok (.add x y) → u.carry = t.carry) ∧
      ((∀ x y, fetchDecode Config.standard s ≠ .ok (.add x y)) → t.carry = s.carry ∧ u.carry = c) ∧
      (∀ nnn, fetchDecode Config.standard s = .ok (.ldI nnn) → u.index = t.index) ∧
      ((∀ nnn, fetchDecode Config.standard s ≠ .ok (.ldI nnn)) → t.index = s.index ∧ u.index = ix) ∧
      t.dt.toNat = s.dt.toNat - 1 ∧ u.dt.toNat = d.toNat - 1 ∧
      t.lastTick = s.lastTick ∧ u.lastTick = l ∧
      ∃ events, t.trace = s.trace ++ events ∧ u.trace = tr ++ events

/-- R71: during a run the stack only grows, by at most one entry a tick. -/
def Obligations.TheStackOnlyGrows : Prop :=
  ∀ (cfg : Config) (n : Nat) (s : State),
    s.stack <+: (ticks cfg n s).stack ∧ (ticks cfg n s).stack.length ≤ s.stack.length + n

/-- Two canonical memories that read the same at every address are the same list (log entry 14). -/
def Obligations.CanonicalMemoryIsUnique : Prop :=
  ∀ (cfg : Config) (m n : Memory), Memory.wf cfg m → Memory.wf cfg n →
    (∀ a, Memory.read cfg m a = Memory.read cfg n a) → m = n

/-- The step is `Tick()` under the default binding (log entry 17). -/
def Obligations.StepIsTheDefaultTick : Prop :=
  ∀ s : State, step s = tick Config.standard s

/-- R79, R107: `n` steps of the core are `n` ticks while none before the last raises, the last raising or not, and stop
with the error of an earlier tick. The next state of a raising tick and the fault of a halted core are the model's form
(log entry 4). -/
def Obligations.CoreRunIsTicks : Prop :=
  ∀ (n : Nat) (s : State),
    core.run 0 s = .next s ∧
    (RunsSafely Config.standard n s →
      core.run n s = .next (ticks Config.standard n s) ∧
      core.run (n + 1) s = .next (ticks Config.standard (n + 1) s)) ∧
    (∀ k e, k < n → (ticks Config.standard k s).status = .halted e → core.run n s = .fault (.halted e))

/-- A word stored where the next tick fetches runs as the instruction it decodes to (log entry 15). -/
def Obligations.StoredFetchWordRuns : Prop :=
  ∀ (s : State) (w : Nat) (i : Instr), Memory.wf Config.standard s.mem → s.status = .running →
    s.pc.toNat + 1 < Config.standard.memSize → decodeTableWord 16 w = some i →
    step (s.withFetchWord 16 w) = exec i (decrementTimer (s.withFetchWord 16 w))
end

