-- ==== Sys2Proof/Laws/PerInstr.lean ====
section
/-! SUPPORT. Facts about every instruction as syntax, one lemma per constructor. -/

namespace Sys2Proof.Laws.EncodedFields

/-- Where an instruction's selectors and operands stand in its word (R46, R47). -/
def Statement (i : Instr) : Prop :=
  ∀ cfg : Config,
    match i with
    | .cls => familyField (encode cfg i) = 0#4 ∧ subField (encode cfg i) = cfg.clsSub
    | .add x y => familyField (encode cfg i) = 0#4 ∧ subField (encode cfg i) = cfg.addSub ∧
        xField (encode cfg i) = x ∧ yField (encode cfg i) = y
    | .ldI nnn => familyField (encode cfg i) = cfg.setiFam ∧ nnnField (encode cfg i) = nnn
    | .call nnn => familyField (encode cfg i) = cfg.callFam ∧ nnnField (encode cfg i) = nnn

theorem cls : Statement .cls := fun cfg => by simp [encode]

theorem add (x y : Nibble) : Statement (.add x y) := fun cfg => by simp [encode]

theorem ldI (nnn : Imm12) : Statement (.ldI nnn) := fun cfg => by simp [encode]

theorem call (nnn : Imm12) : Statement (.call nnn) := fun cfg => by simp [encode]

end Sys2Proof.Laws.EncodedFields
end

