-- ==== Sys2Proof/Tests/Slice0.lean ====
section
/-! SUPPORT. The model's own tests: the checks of WellFormed, words and steps with the results that
spec/95_test_vectors.md gives, and for each statement with hypotheses a state that meets them. -/

namespace Sys2Proof.Tests
open Sys2Proof Sys2Proof.Machine

/-- A state after reset with a word at the given PC. -/
def atWord (pc op : Word) : State :=
  { State.reset with pc := pc, mem := Memory.writeBytes Config.standard [] pc.toNat (bytesOfWord op) }

/-- Reset with two registers set. -/
def withV (x y : Nibble) (a b : Byte) (s : State) : State := writeV x a (writeV y b s)

/-- A full stack under the default binding. -/
def fullStack : List Word := List.replicate 16 0x200#16

/-- The next state of an outcome. -/
def nextOf : Host.Outcome State Fault Refusal → Option State
  | .next s => some s
  | _ => none

/-- A small legal configuration of the largest memory, with no font and a tick period. -/
def bigCfg : Config := { Config.standard with memSize := 65536, fontTable := [], tickPeriod := 10 }

/-! ### The checks of a configuration (R4) -/

theorem test_standard_legal : Config.standard.Legal := by decide
theorem test_bigCfg_legal : bigCfg.Legal := by decide
theorem test_refuses_equal_subselectors : ¬ ({ Config.standard with clsSub := 4#4 }).Legal := by decide
theorem test_refuses_zero_setiFam : ¬ ({ Config.standard with setiFam := 0#4 }).Legal := by decide
theorem test_refuses_zero_callFam : ¬ ({ Config.standard with callFam := 0#4 }).Legal := by decide
theorem test_refuses_equal_families : ¬ ({ Config.standard with setiFam := 2#4 }).Legal := by decide
theorem test_refuses_font_in_program : ¬ ({ Config.standard with fontBase := 0x1B1#16 }).Legal := by decide
theorem test_refuses_small_memory : ¬ ({ Config.standard with memSize := 513 }).Legal := by decide
theorem test_refuses_two_byte_memory :
    ¬ ({ Config.standard with memSize := 2, fontTable := [], progBase := 0#16 }).Legal := by decide
theorem test_refuses_large_memory : ¬ ({ Config.standard with memSize := 65537 }).Legal := by decide
theorem test_refuses_no_stack : ¬ ({ Config.standard with stackCap := 0 }).Legal := by decide
theorem test_tick_refuses_illegal :
    tick { Config.standard with stackCap := 0 } State.reset = .refused .illegalConfig := by rfl

/-! ### Decoding (section 2.1 of the vectors; words written bit by bit from R47) -/

theorem test_decode_cls : decode Config.standard (0b0000#4 ++ 0b00001110#8 ++ 0b0000#4) = .instr .cls := by decide
theorem test_decode_cls_ignores_fields :
    decode Config.standard 0b0000111111110000#16 = .instr .cls := by decide
theorem test_decode_add : decode Config.standard 0b0000000100100100#16 = .instr (.add 1#4 2#4) := by decide
theorem test_decode_ldI : decode Config.standard 0b1010111111111111#16 = .instr (.ldI 0xFFF#12) := by decide
theorem test_decode_call : decode Config.standard 0b0010001100000000#16 = .instr (.call 0x300#12) := by decide
theorem test_decode_chip8_return_invalid :
    decode Config.standard 0b0000000011101110#16 = .invalid 0x00EE#16 := by decide
theorem test_decode_chip8_add_invalid :
    decode Config.standard 0b1000000100100100#16 = .invalid 0x8124#16 := by decide
theorem test_decode_rebound_add :
    decode { Config.standard with addSub := 5#4 } 0x0125#16 = .instr (.add 1#4 2#4) := by decide
theorem test_decodeTableWord_call : decodeTableWord 16 0x2300 = some (.call 0x300#12) := by decide
theorem test_decodeTableWord_invalid : decodeTableWord 16 0xFFFF = none := by decide
theorem test_decodeBytes_high_first :
    decodeBytes Config.standard [0xA2#8, 0x34#8, 0x00#8] = .ok (.ldI 0x234#12, [0x00#8]) := by decide

/-! ### Steps (sections 1 and 2 of the vectors) -/

/-- E5: 0xFF + 0x01 wraps to 0x00 with carry 1. -/
theorem test_add_wraps :
    (nextOf (step (withV 1#4 2#4 0xFF#8 0x01#8 (atWord 0x200#16 0x0124#16)))).map
      (fun s => (readV 1#4 s, readV 2#4 s, s.carry, s.pc)) = some (0x00#8, 0x01#8, 0x01#8, 0x202#16) := by decide

/-- VF holds the sum, not the carry (2.3). -/
theorem test_add_vf_holds_sum :
    (nextOf (step (withV 15#4 1#4 0xFF#8 0x02#8 (atWord 0x200#16 0x0F14#16)))).map
      (fun s => (readV 15#4 s, s.carry)) = some (0x01#8, 0x01#8) := by decide

/-- 0x7F + 0x80 is 255, not over it; an old carry is cleared (2.3). -/
theorem test_add_no_carry_at_255 :
    (nextOf (exec (.add 1#4 2#4) (writeC 1#8 (withV 1#4 2#4 0x7F#8 0x80#8 State.reset)))).map
      (fun s => (readV 1#4 s, s.carry)) = some (0xFF#8, 0x00#8) := by decide

/-- 0x00E0 at PC 0x300 (2.4). -/
theorem test_cls_emits_and_advances :
    (nextOf (step (writeC 1#8 (atWord 0x300#16 0x00E0#16)))).map (fun s => (s.trace, s.pc, s.carry)) =
      some ([.clearScreen], 0x302#16, 0x01#8) := by decide

/-- 0xA123 clears an upper nibble a test launch set (2.5). -/
theorem test_ldI_clears_upper_nibble :
    (nextOf (step { atWord 0x200#16 0xA123#16 with index := 0xF000#16 })).map (fun s => (s.index, s.pc)) =
      some (0x0123#16, 0x202#16) := by decide

/-- E7. -/
theorem test_call_pushes_own_address :
    (nextOf (step (atWord 0x200#16 0x2300#16))).map (fun s => (s.pc, s.stack, s.status)) =
      some (0x300#16, [0x200#16], .running) := by decide

/-- 2.6: the seventeenth push overflows. -/
theorem test_call_overflow :
    (nextOf (step { atWord 0x200#16 0x2200#16 with stack := fullStack })).map
      (fun s => (s.pc, s.stack == fullStack, s.status)) =
      some (0x200#16, true, .halted .stackOverflow) := by decide

/-- 2.2: an odd PC fetches its two bytes; 0x1234 is invalid. -/
theorem test_odd_fetch_invalid :
    (nextOf (step (atWord 0x201#16 0x1234#16))).map (fun s => (s.pc, s.status)) =
      some (0x201#16, .halted (.invalidOpcode 0x1234#16)) := by decide

/-- 2.2: 0xFFE is the last fetchable address, 0xFFF is not. -/
theorem test_fetch_bound :
    (nextOf (step { State.reset with pc := 0xFFE#16 })).map State.status = some .running ∧
    (nextOf (step { State.reset with pc := 0xFFF#16 })).map State.status =
      some (.halted (.fetchOutOfRange 0x0FFF#16)) := by decide

/-- 2.7: the faulting tick's decrement stays. -/
theorem test_faulting_tick_decrements :
    (nextOf (step { atWord 0x200#16 0xFFFF#16 with dt := 5#8 })).map State.dt = some 4#8 := by decide

/-- 2.9: a halted core has no step. -/
theorem test_halted_has_no_step :
    step { State.reset with status := .halted .stackOverflow } = .fault (.halted .stackOverflow) := by rfl

/-- The PC wraps at 2^16 with 65536 bytes of memory (R16). -/
theorem test_pc_wraps :
    (nextOf (tick bigCfg { State.resetWith bigCfg with pc := 0xFFFE#16 })).map State.pc = some 0x0000#16 := by decide

/-- The word stored for the host's check is the one the next step runs. -/
theorem test_withFetchWord_runs :
    (nextOf (step (State.reset.withFetchWord 16 0xA234))).map State.index = some 0x0234#16 := by decide

/-- 2.6: Push and Pop. -/
theorem test_pop_returns_top :
    pop { State.reset with stack := [0x200#16, 0x208#16] } =
      .ok (0x208#16, { State.reset with stack := [0x200#16] }) := by rfl

/-! ### Reset, load, run and text -/

/-- E2. -/
theorem test_reset_font :
    State.reset.byteAt Config.standard 0x000 = 0xF0#8 ∧ State.reset.byteAt Config.standard 0x001 = 0x90#8 ∧
    State.reset.byteAt Config.standard 0x04F = 0x80#8 ∧ State.reset.byteAt Config.standard 0x050 = 0x00#8 ∧
    Config.standard.fontLen = 80 := by decide

/-- 2.8: two overlapping loads. -/
theorem test_later_load_overwrites :
    (canonicalLaunch Config.standard [[0xAA#8, 0xBB#8], [0xCC#8]]).map
      (fun s => (hostReadByte Config.standard 0x200 s, hostReadByte Config.standard 0x201 s,
        hostReadByte Config.standard 4096 s)) = some (some 0xCC#8, some 0xBB#8, none) := by decide

/-- D13: a launch with a load that does not fit has no meaning. -/
theorem test_launch_refuses_oversized_load :
    canonicalLaunch { Config.standard with memSize := 514 } [[0xAA#8], [0x01#8, 0x02#8, 0x03#8]] = none ∧
    (canonicalLaunch { Config.standard with memSize := 514 } [[0xAA#8], [0x01#8, 0x02#8]]).map State.pc =
      some 0x0200#16 := by decide

/-- R101: while `Run()` executes a load is refused; it executes until it returns an error. -/
theorem test_no_load_inside_run :
    (CoreInstance.inRun State.reset).loadProgram Config.standard [0xAA#8] = .refused .runExecuting ∧
    (CoreInstance.inRun (State.resetWith bigCfg)).poll bigCfg 3 =
      runReached (pollOnce bigCfg 3 (State.resetWith bigCfg)) ∧
    runReached { State.reset with status := .halted .stackOverflow } =
      ⟨.idle { State.reset with status := .halted .stackOverflow }, some .stackOverflow⟩ := ⟨rfl, rfl, rfl⟩

/-- 2.8: 3585 bytes do not fit. -/
theorem test_load_out_of_range :
    loadProgram Config.standard (List.replicate 3585 0x01#8) State.reset =
      ⟨State.reset, some (.loadOutOfRange 3585)⟩ := by
  unfold loadProgram
  rw [if_pos (by rw [List.length_replicate]; decide), List.length_replicate]

/-- The run loop ticks at the first sample, polls below a tick period, ticks at a period (R106). -/
theorem test_run_polls :
    ((run bigCfg [3, 12, 13] (State.resetWith bigCfg)).state.lastTick,
      (run bigCfg [3, 12, 13] (State.resetWith bigCfg)).state.pc) = (.sampled 13, 0x204#16) := by decide

/-- A write of the reset contents removes the entry. -/
theorem test_write_keeps_canonical :
    Memory.write Config.standard (Memory.write Config.standard [] 0x200 0x12#8) 0x200 0x00#8 = [] ∧
    Memory.write Config.standard [] 0x000 0xF0#8 = [] := by decide

/-- R75's codes. -/
theorem test_error_codes :
    [FatalError.stackOverflow, .stackUnderflow, .invalidOpcode 0#16, .fetchOutOfRange 0#16,
      .loadOutOfRange 0].map FatalError.code = [1, 2, 3, 4, 5] := by decide

/-- E10's text. -/
theorem test_opcode_text : wordText 0x00EE#16 = ['0', 'x', '0', '0', 'E', 'E'] := by decide

/-- A line with a label and a comment (R55), and its bytes. -/
theorem test_assemble_line :
    parseLine "0x202: CALL 0x20c ; go".toList = some [.instr (.call 0x20C#12)] ∧
    assemble Config.standard [.instr (.call 0x20C#12), .word 0xFFFF#16] =
      [0x22#8, 0x0C#8, 0xFF#8, 0xFF#8] := by decide

theorem test_parse_refuses : parseLine "JP 0x200".toList = none := by decide

theorem test_parse_empty_line : parseLine "  ; only a comment".toList = some [] := by decide

/-! ### A state that meets the hypotheses of each statement that has some -/

theorem test_witness_DecodeFollowsTheTwoTiers :
    ((0x0FF4#16).toNat / 4096 = 0 ∧ (0x0FF4#16).toNat % 16 = Config.standard.addSub.toNat) ∧
    ((0x00E0#16).toNat / 4096 = 0 ∧ (0x00E0#16).toNat % 16 ≠ Config.standard.addSub.toNat ∧
      (0x00E0#16).toNat % 16 = Config.standard.clsSub.toNat) ∧
    ((0x0FFF#16).toNat / 4096 = 0 ∧ (0x0FFF#16).toNat % 16 ≠ Config.standard.addSub.toNat ∧
      (0x0FFF#16).toNat % 16 ≠ Config.standard.clsSub.toNat) ∧
    ((0xAFFF#16).toNat / 4096 ≠ 0 ∧ (0xAFFF#16).toNat / 4096 = Config.standard.setiFam.toNat) ∧
    ((0x2000#16).toNat / 4096 ≠ 0 ∧ (0x2000#16).toNat / 4096 ≠ Config.standard.setiFam.toNat ∧
      (0x2000#16).toNat / 4096 = Config.standard.callFam.toNat) ∧
    ((0xFFFF#16).toNat / 4096 ≠ 0 ∧ (0xFFFF#16).toNat / 4096 ≠ Config.standard.setiFam.toNat ∧
      (0xFFFF#16).toNat / 4096 ≠ Config.standard.callFam.toNat) := by decide

/-- For DecodeOfEncodeIsTheInstruction and ByteStreamHeadDecodes. -/
theorem test_witness_legal_configuration : Config.standard.Legal ∧ bigCfg.Legal := by decide

theorem test_witness_EncodeOfDecodeIsTheWord :
    (decode Config.standard 0x0FF4#16 = .instr (.add 15#4 15#4) ∧ Instr.add 15#4 15#4 ≠ .cls) ∧
    decode Config.standard 0x0FF0#16 = .instr .cls := by decide

/-- An odd PC, and the last fetchable one. -/
theorem test_witness_FetchIsBigEndian :
    (atWord 0x201#16 0x1234#16).pc.toNat + 1 < Config.standard.memSize ∧
    ({ State.reset with pc := 0xFFE#16 }).pc.toNat + 1 < Config.standard.memSize := by decide

theorem test_witness_FetchOutOfRangeHalts :
    State.reset.status = .running ∧
    Config.standard.memSize ≤ ({ State.reset with pc := 0xFFF#16 }).pc.toNat + 1 := by decide

theorem test_witness_InvalidWordHalts :
    (atWord 0x200#16 0x00EE#16).status = .running ∧
    (atWord 0x200#16 0x00EE#16).pc.toNat + 1 < Config.standard.memSize ∧
    (0x00EE#16).toNat = 256 * ((atWord 0x200#16 0x00EE#16).byteAt Config.standard 0x200).toNat +
      ((atWord 0x200#16 0x00EE#16).byteAt Config.standard 0x201).toNat ∧
    decode Config.standard 0x00EE#16 = .invalid 0x00EE#16 := by decide

/-- For AddResult, ClsResult and LdIResult: the last PC that does not wrap. -/
theorem test_witness_pc_advance : (0xFFFD#16).toNat + 2 < 65536 ∧ Config.standard.Legal := by decide

/-- For CallResult, CallOnFullStackHalts and PushAppendsOrOverflows: the last room, and none. -/
theorem test_witness_stack_room_and_full :
    (List.replicate 15 0x200#16).length ≠ Config.standard.stackCap ∧
    fullStack.length = Config.standard.stackCap ∧ Config.standard.Legal := by decide

theorem test_witness_OnlyCallWithholdsTheAdvance :
    (∃ t, execute Config.standard .cls State.reset = .returned true t) ∧
    (∃ t, execute Config.standard (.call 0x300#12) State.reset = .returned false t) ∧
    ∃ t, execute Config.standard (.call 0x300#12) { State.reset with stack := fullStack } =
      .raised .stackOverflow t := ⟨⟨_, rfl⟩, ⟨_, rfl⟩, ⟨_, rfl⟩⟩

theorem test_witness_AddFrame : (3#4 : Nibble) ≠ 15#4 ∧ ∃ t, exec (.add 15#4 1#4) State.reset = .next t :=
  ⟨by decide, _, rfl⟩

theorem test_witness_ClsFrame : ∃ t, exec .cls State.reset = .next t := ⟨_, rfl⟩

theorem test_witness_LdIFrame : ∃ t, exec (.ldI 0xFFF#12) State.reset = .next t := ⟨_, rfl⟩

theorem test_witness_CallFrame :
    (∃ t, exec (.call 0x300#12) State.reset = .next t) ∧
    (∃ t, exec (.call 0x300#12) { State.reset with stack := fullStack } = .next t) ∧
    State.reset.stack.length ≠ Config.standard.stackCap ∧ fullStack.length = Config.standard.stackCap :=
  ⟨⟨_, rfl⟩, ⟨_, rfl⟩, by decide, by decide⟩

theorem test_witness_PopUndoesPush :
    State.reset.stack = [] ∧ ([0x200#16, 0x208#16] : List Word) = [0x200#16] ++ [0x208#16] ∧
    (∃ t, push Config.standard 0xBEEF#16 State.reset = .ok t) ∧ ∃ t, exec (.call 0#12) State.reset = .next t :=
  ⟨rfl, rfl, ⟨_, rfl⟩, ⟨_, rfl⟩⟩

/-- For TimerDropsOnceATick and FiveElementsReachOnlyThemselves: a legal configuration, a running and a halted core. -/
theorem test_witness_running_and_halted :
    Config.standard.Legal ∧
    State.reset.status = .running ∧ ({ State.reset with status := .halted .stackOverflow }).status =
      .halted .stackOverflow := by decide

/-- Two CLS ticks from a test launch with the timer set (P7). -/
theorem test_witness_NTicksDropTheTimerNTimes :
    (ticks Config.standard 2 { State.reset with dt := 5#8 }).status = .running ∧
    (ticks Config.standard 2 { State.reset with dt := 5#8 }).dt = 3#8 := by decide

theorem test_witness_StepRunsTheDecodedInstruction :
    State.reset.status = .running ∧ (atWord 0xFFE#16 0x0124#16).pc.toNat + 1 < Config.standard.memSize ∧
    decode Config.standard (wordOfBytes ((atWord 0xFFE#16 0x0124#16).byteAt Config.standard 0xFFE)
      ((atWord 0xFFE#16 0x0124#16).byteAt Config.standard 0xFFF)) = .instr (.add 1#4 2#4) := by decide

/-- One state for each of the four ends of a tick, at the fetch bound's two sides. -/
theorem test_witness_TickErrorsComeInOrder :
    Config.standard.Legal ∧ Config.standard.memSize ≤ (0xFFF#16).toNat + 1 ∧
    (0xFFE#16).toNat + 1 < Config.standard.memSize ∧
    fetch Config.standard (atWord 0xFFE#16 0x00EE#16) = .ok 0x00EE#16 ∧
    decode Config.standard 0x00EE#16 = .invalid 0x00EE#16 ∧
    fetch Config.standard { atWord 0xFFE#16 0x2200#16 with stack := fullStack } = .ok 0x2200#16 ∧
    decode Config.standard 0x2200#16 = .instr (.call 0x200#12) ∧
    fullStack.length = Config.standard.stackCap ∧
    fetch Config.standard State.reset = .ok 0x0000#16 ∧ decode Config.standard 0x0000#16 = .instr .cls ∧
    State.reset.status = .running := by decide

theorem test_witness_RaisingTickKeepsOnlyTheDecrement :
    ∃ t, tick Config.standard { State.reset with pc := 0xFFF#16 } = .next t ∧
      t.status = .halted (.fetchOutOfRange 0xFFF#16) :=
  ⟨_, tick_running (by decide) rfl, by decide⟩

/-- A raising tick, a CLS at the last fetchable PC of the default memory, and one that wraps. -/
theorem test_witness_PcAdvancesByTwoOrStays :
    (∃ t, tick Config.standard { State.reset with pc := 0xFFF#16 } = .next t ∧
      t.status = .halted (.fetchOutOfRange 0xFFF#16)) ∧
    (∃ t, tick Config.standard { State.reset with pc := 0xFFE#16 } = .next t) ∧
    fetchDecode Config.standard { State.reset with pc := 0xFFE#16 } = .ok .cls ∧
    Config.standard.memSize ≤ 65535 ∧
    (∃ t, tick bigCfg { State.resetWith bigCfg with pc := 0xFFFE#16 } = .next t) ∧
    fetchDecode bigCfg { State.resetWith bigCfg with pc := 0xFFFE#16 } = .ok .cls :=
  ⟨⟨_, tick_running (by decide) rfl, by decide⟩, ⟨_, tick_running (by decide) rfl⟩, by decide, by decide,
    ⟨_, tick_running (by decide) rfl⟩, by decide⟩

theorem test_witness_NextFetchAfterCallIsAtItsTarget :
    (atWord 0x200#16 0x2FFE#16).status = .running ∧
    fetchDecode Config.standard (atWord 0x200#16 0x2FFE#16) = .ok (.call 0xFFE#12) ∧
    (atWord 0x200#16 0x2FFE#16).stack.length ≠ Config.standard.stackCap ∧
    (0xFFE#12).toNat + 1 < Config.standard.memSize := by decide

/-- The last font byte, and the address after it. -/
theorem test_witness_ResetLeavesEveryElement :
    79 < Config.standard.fontLen ∧ Config.standard.fontBase.toNat + Config.standard.fontLen ≤ 80 := by decide

/-- An unreset instance, and one halted with a full stack. -/
theorem test_witness_ResetForgetsThePast :
    Config.standard.Legal ∧ CoreInstance.neverReset.runExecuting = false ∧
    (CoreInstance.idle { State.reset with status := .halted .stackOverflow, stack := fullStack }).runExecuting =
      false := by decide

theorem test_witness_HostCallsWaitForRunToReturn : (CoreInstance.inRun State.reset).runExecuting = true := by decide

/-- A run that is executing after one sample, and one that has returned its error. -/
theorem test_witness_RunExecutesUntilItReturnsAnError :
    Config.standard.Legal ∧
    (∃ r, (CoreInstance.idle State.reset).run Config.standard [0] = .next r ∧ r.error = none) ∧
    ∃ r, (CoreInstance.idle { State.reset with pc := 0xFFF#16 }).run Config.standard [0] = .next r ∧
      r.error = some (.fetchOutOfRange 0xFFF#16) :=
  ⟨by decide, ⟨_, withIdle_idle (by decide) _ _, by decide⟩, _, withIdle_idle (by decide) _ _, by decide⟩

theorem test_witness_LaunchStartsAtTheProgramBase :
    Config.standard.Legal ∧ ∃ s, canonicalLaunch Config.standard [[0xAA#8, 0xBB#8], [0xCC#8]] = some s :=
  ⟨by decide, _, rfl⟩

/-- The four kinds of instruction behind the clauses about carry and index. -/
theorem test_witness_FiveElementsReachOnlyThemselves :
    fetchDecode Config.standard (atWord 0x200#16 0x0124#16) = .ok (.add 1#4 2#4) ∧
    fetchDecode Config.standard (atWord 0x200#16 0xA234#16) = .ok (.ldI 0x234#12) ∧
    fetchDecode Config.standard State.reset = .ok .cls ∧ State.reset.status = .running := by decide

theorem test_witness_NothingRunsUnresetOrIllegal : ¬ ({ Config.standard with stackCap := 0 }).Legal := by decide

/-- 3584 bytes fit exactly, 3585 do not. -/
theorem test_witness_LoadProgramCopiesOrRefuses :
    Memory.wf Config.standard State.reset.mem ∧
    Config.standard.progBase.toNat + (List.replicate 3584 0x01#8).length ≤ Config.standard.memSize ∧
    Config.standard.memSize < Config.standard.progBase.toNat + (List.replicate 3585 0x01#8).length := by
  refine ⟨by decide, ?_, ?_⟩ <;> rw [List.length_replicate] <;> decide

theorem test_witness_LoadProgramChangesOnlyItsBytes :
    Config.standard.Legal ∧ Memory.wf Config.standard State.reset.mem ∧
    (0x1FF < Config.standard.progBase.toNat ∧ Config.standard.progBase.toNat + [0xCC#8].length ≤ 0x201) ∧
    State.reset.FontHeld Config.standard :=
  ⟨by decide, by decide, by decide, fun k _ => resetByte_font Config.standard k⟩

theorem test_witness_TestLaunchSetsSixElements :
    (fullStack.length ≤ Config.standard.stackCap ∧ (0x01#8).toNat ≤ 1) ∧
    (Config.standard.stackCap < (0x200#16 :: fullStack).length ∧ 1 < (0x02#8).toNat) := by decide

/-- Never ticked, exactly a period, one short of it, halted. -/
theorem test_witness_RunTicksExactlyWhenDue :
    ((State.resetWith bigCfg).status = .running ∧ (State.resetWith bigCfg).lastTick = .never) ∧
    ((State.reset.stamp (.sampled 3)).lastTick = .sampled 3 ∧
      (State.reset.stamp (.sampled 3)).status = .running) ∧
    (bigCfg.tickPeriod : Int) ≤ (13 : Nat) - (3 : Nat) ∧ ((12 : Nat) : Int) - (3 : Nat) < (bigCfg.tickPeriod : Int) ∧
    ({ State.reset with status := .halted .stackOverflow }).status = .halted .stackOverflow := by decide

theorem test_witness_SamplesAPeriodApartTickOnceEach :
    (State.resetWith bigCfg).lastTick = .never ∧
    ([0, 10, 25] : List Nat).Pairwise (fun a b => a + bigCfg.tickPeriod ≤ b) := by decide

theorem test_witness_EveryRunEnds :
    Config.standard.Legal ∧ Config.standard.memSize ≤ 65535 ∧ State.reset.status = .running ∧
    State.reset.stack.length ≤ Config.standard.stackCap := by decide

theorem test_witness_ClsEverywhereRunsForever :
    bigCfg.memSize = 65536 ∧ (State.resetWith bigCfg).status = .running ∧
    (State.resetWith bigCfg).pc.toNat % 2 = 0 ∧
    ∀ w : Word, w.toNat % 2 = 0 → fetchDecode bigCfg { State.resetWith bigCfg with pc := w } = .ok .cls := by
  refine ⟨rfl, rfl, rfl, fun w hw => ?_⟩
  have := w.isLt
  have zero : ∀ a, (State.resetWith bigCfg).byteAt bigCfg a = 0x00#8 := fun a =>
    resetByte_outside (cfg := bigCfg) (a := a) (.inr (Nat.zero_le a))
  have hf : fetch bigCfg { State.resetWith bigCfg with pc := w } = .ok (wordOfBytes 0x00#8 0x00#8) := by
    unfold fetch
    rw [if_neg (by show ¬ 65536 ≤ w.toNat + 1; omega)]
    exact congrArg _ (congr (congrArg _ (zero _)) (zero _))
  unfold fetchDecode
  rw [hf]
  rfl

theorem test_witness_StepKeepsWellFormedness :
    State.reset.WF Config.standard ∧ Config.standard.Legal ∧ (∃ t, step State.reset = .next t) ∧
    ∃ t, tick Config.standard State.reset = .next t :=
  ⟨⟨by decide, by decide, by decide, fun _ h => nomatch h⟩, by decide, ⟨_, step_running rfl⟩, _,
    tick_running (by decide) rfl⟩

theorem test_witness_StepKeepsTheCanonicalInvariant :
    State.reset.Canonical Config.standard ∧ Config.standard.Legal ∧ (∃ t, step State.reset = .next t) ∧
    ∃ t, tick Config.standard State.reset = .next t :=
  ⟨⟨test_witness_StepKeepsWellFormedness.1, by decide, by decide, fun k _ => resetByte_font Config.standard k⟩,
    by decide, ⟨_, step_running rfl⟩, _, tick_running (by decide) rfl⟩

/-- A reachable instance with a stack entry: Reset, one load, `Run()` started, one sample that runs a CALL. -/
theorem test_witness_ReachableStatesMeetTheInvariants :
    Config.standard.Legal ∧ ∃ c s, Reachable Config.standard c ∧ c.state = some s ∧
      s.stack = [] ++ 0x200#16 :: [] :=
  ⟨by decide, _, _, .advance (.advance (.advance (.reset .create rfl) (.load [0x23#8, 0x00#8] rfl)) (.start rfl))
    (.poll 0 _), rfl, by decide⟩

theorem test_witness_StepsNeverWriteMemory : ∃ t, step State.reset = .next t := ⟨_, step_running rfl⟩

/-- A step that changes a register, and the carry; the index; the stack; the trace. -/
theorem test_witness_EachElementHasOneWriter :
    (nextOf (step (withV 1#4 2#4 0xFF#8 0x02#8 (atWord 0x200#16 0x0124#16)))).map
      (fun s => (readV 1#4 s, s.carry)) = some (0x01#8, 0x01#8) ∧
    (nextOf (step (atWord 0x200#16 0xA234#16))).map State.index = some 0x0234#16 ∧
    (nextOf (step (atWord 0x200#16 0x2300#16))).map State.stack = some [0x200#16] ∧
    (nextOf (step (atWord 0x200#16 0x0000#16))).map State.trace = some [.clearScreen] := by decide

theorem test_witness_OnlyAddReadsRegisters : ∀ x y, Instr.cls ≠ .add x y := by decide

theorem test_witness_CanonicalMemoryIsUnique :
    Memory.wf Config.standard [(0x200, 0x12#8), (0xFFF, 0x34#8)] := by decide

/-- A safe run, and one whose first tick raises: the last tick of one step, an earlier one of two. -/
theorem test_witness_CoreRunIsTicks :
    (ticks Config.standard 1 State.reset).status = .running ∧
    (ticks Config.standard 0 { State.reset with pc := 0xFFF#16 }).status = .running ∧
    (ticks Config.standard 1 { State.reset with pc := 0xFFF#16 }).status =
      .halted (.fetchOutOfRange 0xFFF#16) := by decide

theorem test_witness_StoredFetchWordRuns :
    Memory.wf Config.standard State.reset.mem ∧ State.reset.status = .running ∧
    State.reset.pc.toNat + 1 < Config.standard.memSize ∧
    decodeTableWord 16 0x2300 = some (.call 0x300#12) := by decide

end Sys2Proof.Tests
end

/-! PROOFS. How a tick ends, and what it does to each state element: one inductive with a case per end, one lemma per
element. The statements about the state (spec/10_state.md) below are assembled from these. -/

namespace Sys2Proof.Machine

/-! ### How a tick ends -/

theorem runningTick_of_error {cfg : Config} {s : State} {e : FatalError} (front : fetchDecode cfg s = .error e) :
    runningTick cfg s = raiseFatal e (decrementTimer s) := by
  simp only [runningTick, fetchDecode_decrementTimer, front]

theorem runningTick_of_ok {cfg : Config} {s : State} {i : Instr} (front : fetchDecode cfg s = .ok i) :
    runningTick cfg s = complete (execute cfg i (decrementTimer s)) := by
  simp only [runningTick, fetchDecode_decrementTimer, front]

/-- The six ends of a tick from `s` (R103), each with what the front end answered and the exact state it leaves. -/
inductive TickEnd (cfg : Config) (s : State) : State → Prop
  | frontRaised {e : FatalError} (front : fetchDecode cfg s = .error e) :
      TickEnd cfg s (raiseFatal e (decrementTimer s))
  | cls (front : fetchDecode cfg s = .ok .cls) : TickEnd cfg s (incrementPc (displayClear (decrementTimer s)))
  | add {x y : Nibble} (front : fetchDecode cfg s = .ok (.add x y)) :
      TickEnd cfg s (incrementPc (writeV x (BitVec.ofNat 8 ((readV x s).toNat + (readV y s).toNat))
        (writeC (carryOfAdd (readV x s) (readV y s)) (decrementTimer s))))
  | ldI {nnn : Imm12} (front : fetchDecode cfg s = .ok (.ldI nnn)) :
      TickEnd cfg s (incrementPc (writeI (zextImm nnn) (decrementTimer s)))
  | call {nnn : Imm12} (front : fetchDecode cfg s = .ok (.call nnn)) (room : s.stack.length ≠ cfg.stackCap) :
      TickEnd cfg s { decrementTimer s with stack := s.stack ++ [s.pc], pc := zextImm nnn }
  | overflow {nnn : Imm12} (front : fetchDecode cfg s = .ok (.call nnn)) (full : s.stack.length = cfg.stackCap) :
      TickEnd cfg s (raiseFatal .stackOverflow (decrementTimer s))

/-- A running tick ends in one of the six ways. -/
theorem tickEnd_runningTick (cfg : Config) (s : State) : TickEnd cfg s (runningTick cfg s) := by
  cases front : fetchDecode cfg s with
  | error e => exact runningTick_of_error front ▸ .frontRaised front
  | ok i =>
    rw [runningTick_of_ok front]
    rcases complete_execute_cases cfg i (decrementTimer s) with
      ⟨rfl, h⟩ | ⟨x, y, rfl, h⟩ | ⟨nnn, rfl, h⟩ | ⟨nnn, rfl, room, h⟩ | ⟨nnn, rfl, full, h⟩
    · exact h ▸ .cls front
    · exact h ▸ .add front
    · exact h ▸ .ldI front
    · exact h ▸ .call front room
    · exact h ▸ .overflow front full

/-- What fetch and decode raise is code 3 or 4 (R84). -/
theorem fetchDecode_error_code {cfg : Config} {s : State} {e : FatalError} (h : fetchDecode cfg s = .error e) :
    e.code = 3 ∨ e.code = 4 := by
  rcases fetchDecode_cases h with ⟨-, hr⟩ | ⟨op, -, -, hr⟩ | ⟨op, i, -, -, hr⟩
  · cases hr; exact .inr rfl
  · cases hr; exact .inl rfl
  · cases hr

/-- An instruction is decoded only where both its bytes are in memory (R36). -/
theorem fetchDecode_ok_inRange {cfg : Config} {s : State} {i : Instr} (h : fetchDecode cfg s = .ok i) :
    s.pc.toNat + 1 < cfg.memSize := by
  by_contra hout
  have hf : fetch cfg s = .error (.fetchOutOfRange s.pc) := if_pos (by omega)
  simp [fetchDecode, hf] at h

/-! ### What a tick does to each element

ADD alone writes registers and carry (R12, R14), LD I the index (R17), CLS the trace (R89), CALL the stack (R18). -/

section
variable {cfg : Config} {s t : State}

theorem TickEnd.carry_of_add (h : TickEnd cfg s t) {x y : Nibble} (front : fetchDecode cfg s = .ok (.add x y)) :
    t.carry = carryOfAdd (readV x s) (readV y s) := by
  cases h with
  | add added =>
    cases front.symm.trans added
    rfl
  | frontRaised other | cls other | ldI other | call other | overflow other => simp [other] at front

theorem TickEnd.v_of_not_add (h : TickEnd cfg s t) (noAdd : ∀ x y, fetchDecode cfg s ≠ .ok (.add x y)) :
    t.v = s.v := by
  cases h with
  | add front => exact absurd front (noAdd _ _)
  | frontRaised | cls | ldI | call | overflow => rfl

theorem TickEnd.carry_of_not_add (h : TickEnd cfg s t) (noAdd : ∀ x y, fetchDecode cfg s ≠ .ok (.add x y)) :
    t.carry = s.carry := by
  cases h with
  | add front => exact absurd front (noAdd _ _)
  | frontRaised | cls | ldI | call | overflow => rfl

theorem TickEnd.index_of_ldI (h : TickEnd cfg s t) {nnn : Imm12} (front : fetchDecode cfg s = .ok (.ldI nnn)) :
    t.index = zextImm nnn := by
  cases h with
  | ldI loaded =>
    cases front.symm.trans loaded
    rfl
  | frontRaised other | cls other | add other | call other | overflow other => simp [other] at front

theorem TickEnd.index_of_not_ldI (h : TickEnd cfg s t) (noLdI : ∀ nnn, fetchDecode cfg s ≠ .ok (.ldI nnn)) :
    t.index = s.index := by
  cases h with
  | ldI front => exact absurd front (noLdI _)
  | frontRaised | cls | add | call | overflow => rfl

theorem TickEnd.trace_of_cls (h : TickEnd cfg s t) (front : fetchDecode cfg s = .ok .cls) :
    t.trace = s.trace ++ [.clearScreen] := by
  cases h with
  | cls => rfl
  | frontRaised other | add other | ldI other | call other | overflow other => simp [other] at front

theorem TickEnd.trace_of_not_cls (h : TickEnd cfg s t) (noCls : fetchDecode cfg s ≠ .ok .cls) :
    t.trace = s.trace := by
  cases h with
  | cls front => exact absurd front noCls
  | frontRaised | add | ldI | call | overflow => rfl

/-- A CALL with room on the stack appends its own address, and nothing else changes the stack (R18, R70). -/
theorem TickEnd.stack (h : TickEnd cfg s t) :
    ((∃ nnn, fetchDecode cfg s = .ok (.call nnn)) ∧ s.stack.length ≠ cfg.stackCap ∧
      t.stack = s.stack ++ [s.pc]) ∨
    t.stack = s.stack := by
  cases h with
  | call front room => exact .inl ⟨⟨_, front⟩, room, rfl⟩
  | frontRaised | cls | add | ldI | overflow => exact .inr rfl

/-- The status is written by a raise only, with one of codes 1, 3 and 4 (R80, R108). -/
theorem TickEnd.status (h : TickEnd cfg s t) :
    (∃ e : FatalError, (e.code = 1 ∨ e.code = 3 ∨ e.code = 4) ∧ t = raiseFatal e (decrementTimer s)) ∨
    t.status = s.status := by
  cases h with
  | frontRaised front => exact .inl ⟨_, .inr (fetchDecode_error_code front), rfl⟩
  | overflow => exact .inl ⟨_, .inl rfl, rfl⟩
  | cls | add | ldI | call => exact .inr rfl

/-- Every instruction but CALL advances the PC (R16, R104). -/
theorem TickEnd.pc_of_not_call (h : TickEnd cfg s t) {i : Instr} (front : fetchDecode cfg s = .ok i)
    (noCall : ∀ nnn, i ≠ .call nnn) : t.pc = s.pc + 2#16 := by
  cases h with
  | cls | add | ldI => rfl
  | frontRaised raised => simp [raised] at front
  | call called | overflow called => exact absurd (Except.ok.inj (front.symm.trans called)) (noCall _)

/-- A running core that a tick leaves halted was halted by a raise. -/
theorem TickEnd.raised (h : TickEnd cfg s t) (running : s.status = .running) {e : FatalError}
    (halted : t.status = .halted e) :
    (e.code = 1 ∨ e.code = 3 ∨ e.code = 4) ∧ t = raiseFatal e (decrementTimer s) := by
  rcases h.status with ⟨e', code, rfl⟩ | kept
  · cases halted
    exact ⟨code, rfl⟩
  · rw [kept, running] at halted
    cases halted

end

/-! ### The advance signal and the PC -/

/-- Execution of anything but a CALL returns the advance signal (R23). -/
theorem execute_returns_true {i : Instr} (noCall : ∀ nnn, i ≠ .call nnn) (cfg : Config) (s : State) :
    ∃ t, execute cfg i s = .returned true t := by
  cases i with
  | cls | add | ldI => exact ⟨_, rfl⟩
  | call nnn => exact absurd rfl (noCall nnn)

/-- Execution of a CALL withholds the advance signal, or raises with the state as it was (R23, R70). -/
theorem execute_call_cases (cfg : Config) (nnn : Imm12) (s : State) :
    (∃ t, execute cfg (.call nnn) s = .returned false t) ∨
    execute cfg (.call nnn) s = .raised .stackOverflow s := by
  by_cases full : s.stack.length = cfg.stackCap
  · exact .inr (callBody_full full nnn)
  · exact .inl ⟨_, callBody_room full nnn⟩

/-- Settles O17: by the two lemmas above, on whether the instruction is a CALL. -/
theorem onlyCallWithholdsTheAdvance : Obligations.OnlyCallWithholdsTheAdvance := by
  intro cfg i s
  by_cases hcall : ∃ nnn, i = .call nnn
  · obtain ⟨nnn, rfl⟩ := hcall
    rcases execute_call_cases cfg nnn s with ⟨t, h⟩ | h <;> simp [h]
  · have noCall : ∀ nnn, i ≠ .call nnn := fun nnn hi => hcall ⟨nnn, hi⟩
    obtain ⟨t, h⟩ := execute_returns_true noCall cfg s
    simp +contextual [h, noCall]

/-- Settles O30: a raise keeps the PC, and the fetch bound keeps `PC + 2` within memory. -/
theorem pcAdvancesByTwoOrStays : Obligations.PcAdvancesByTwoOrStays := by
  intro cfg s t _ ht
  obtain ⟨-, running, rfl⟩ := tick_next ht
  have ends := tickEnd_runningTick cfg s
  refine ⟨fun e halted => ?_, fun i front noCall => ?_⟩
  · rw [(ends.raised running halted).2]
    rfl
  · have inRange := fetchDecode_ok_inRange front
    rw [ends.pc_of_not_call front noCall, BitVec.toNat_add]
    simp only [BitVec.toNat_ofNat, Nat.reducePow, Nat.reduceMod, true_and]
    intro small
    omega

/-! ### Which instruction writes and which reads an element -/

/-- Settles O51: from what a tick does to each element. -/
theorem eachElementHasOneWriter : Obligations.EachElementHasOneWriter := by
  intro s t ht
  obtain ⟨-, rfl⟩ := step_next ht
  have ends := tickEnd_runningTick Config.standard s
  refine ⟨fun changed => ?_, fun changed => ?_, fun changed => ?_, fun changed => ?_⟩
  · by_contra! noAdd
    simp [readV, ends.v_of_not_add noAdd, ends.carry_of_not_add noAdd] at changed
  · by_contra! noLdI
    exact changed (ends.index_of_not_ldI noLdI)
  · rcases ends.stack with ⟨front, -⟩ | kept
    · exact front
    · exact absurd kept changed
  · by_contra noCls
    exact changed (ends.trace_of_not_cls noCls)

/-- Every instruction but ADD ends the same, but for the registers, when the registers are replaced (R12). -/
theorem complete_execute_withV {i : Instr} (noAdd : ∀ x y, i ≠ .add x y) (cfg : Config) (s : State)
    (v : Vector Byte 16) :
    complete (execute cfg i { s with v := v }) = { complete (execute cfg i s) with v := v } := by
  cases i with
  | cls | ldI => rfl
  | add x y => exact absurd rfl (noAdd x y)
  | call nnn =>
    simp only [execute]
    by_cases full : s.stack.length = cfg.stackCap
    · rw [callBody_full full, callBody_full (s := { s with v := v }) full]
      rfl
    · rw [callBody_room full, callBody_room (s := { s with v := v }) full]
      rfl

/-- Settles O52: `exec` is the end of `execute`, which leaves replaced registers alone. -/
theorem onlyAddReadsRegisters : Obligations.OnlyAddReadsRegisters := by
  intro i s v noAdd
  exact ⟨_, exec_eq i s, by rw [exec_eq, complete_execute_withV noAdd]⟩

/-- A state with the five elements that no instruction reads replaced: carry, timer, index, timestamp, trace. -/
def State.withUnread (c d : Byte) (ix : Word) (l : LastTick) (tr : List Event) (s : State) : State :=
  { s with carry := c, index := ix, dt := d, lastTick := l, trace := tr }

/-- What is left of a state when those five are made blank. -/
def State.blankUnread (s : State) : State := s.withUnread 0x00#8 0x00#8 0x0000#16 .never []

theorem blankUnread_inj {t u : State} (h : t.blankUnread = u.blankUnread) :
    t.v = u.v ∧ t.pc = u.pc ∧ t.stack = u.stack ∧ t.mem = u.mem ∧ t.status = u.status := by
  simpa [State.blankUnread, State.withUnread] using h

section
variable (cfg : Config) (c d : Byte) (ix : Word) (l : LastTick) (tr : List Event) (s : State)

theorem fetchDecode_withUnread : fetchDecode cfg (s.withUnread c d ix l tr) = fetchDecode cfg s :=
  fetchDecode_congr rfl rfl

/-- Replacing the five elements before a tick changes no other element after it. -/
theorem blankUnread_runningTick_withUnread :
    (runningTick cfg (s.withUnread c d ix l tr)).blankUnread = (runningTick cfg s).blankUnread := by
  have same := fetchDecode_withUnread cfg c d ix l tr s
  cases front : fetchDecode cfg s with
  | error e =>
    rw [runningTick_of_error front, runningTick_of_error (same.trans front)]
    rfl
  | ok i =>
    rw [runningTick_of_ok front, runningTick_of_ok (same.trans front)]
    cases i with
    | cls | add | ldI => rfl
    | call nnn =>
      simp only [execute]
      by_cases full : s.stack.length = cfg.stackCap
      · rw [callBody_full (s := decrementTimer (s.withUnread c d ix l tr)) full,
          callBody_full (s := decrementTimer s) full]
        rfl
      · rw [callBody_room (s := decrementTimer (s.withUnread c d ix l tr)) full,
          callBody_room (s := decrementTimer s) full]
        rfl

end

/-- Settles O53: the other elements by `blankUnread_runningTick_withUnread`, each of the five by what a tick does to
it, since both ticks have the same front end. -/
theorem fiveElementsReachOnlyThemselves : Obligations.FiveElementsReachOnlyThemselves := by
  intro s c d ix l tr running
  have same := fetchDecode_withUnread Config.standard c d ix l tr s
  have ht := tickEnd_runningTick Config.standard s
  have hu := tickEnd_runningTick Config.standard (s.withUnread c d ix l tr)
  obtain ⟨hv, hpc, hstack, hmem, hstatus⟩ :=
    blankUnread_inj (blankUnread_runningTick_withUnread Config.standard c d ix l tr s)
  refine ⟨_, _, step_running running, step_running (s := s.withUnread c d ix l tr) running, hv, hpc, hstack, hmem,
    hstatus, fun x y front => ?_, fun noAdd => ⟨ht.carry_of_not_add noAdd, hu.carry_of_not_add (same ▸ noAdd)⟩,
    fun nnn front => ?_, fun noLdI => ⟨ht.index_of_not_ldI noLdI, hu.index_of_not_ldI (same ▸ noLdI)⟩, ?_, ?_,
    (runningTick_mem _ _).2, (runningTick_mem _ _).2, ?_⟩
  · exact (hu.carry_of_add (same.trans front)).trans (ht.carry_of_add front).symm
  · exact (hu.index_of_ldI (same.trans front)).trans (ht.index_of_ldI front).symm
  · rw [runningTick_dt, decrementTimer_dt_toNat]
  · rw [runningTick_dt, decrementTimer_dt_toNat]
    rfl
  · by_cases front : fetchDecode Config.standard s = .ok .cls
    · exact ⟨_, ht.trace_of_cls front, hu.trace_of_cls (same.trans front)⟩
    · exact ⟨[], (ht.trace_of_not_cls front).trans (List.append_nil _).symm,
        (hu.trace_of_not_cls (same ▸ front)).trans (List.append_nil _).symm⟩

/-! ### Reset and the test launch -/

/-- Settles O32: memory by what `resetByte` holds in the font region and outside it. -/
theorem resetLeavesEveryElement : Obligations.ResetLeavesEveryElement := by
  intro cfg
  refine ⟨fun x => ?_, rfl, rfl, rfl, rfl, rfl, fun k _ => ?_, fun a outside => ?_, rfl, rfl, rfl⟩
  · simp [readV, State.resetWith]
  · exact resetByte_font cfg k
  · exact resetByte_outside outside

/-- The state after Reset is well formed. -/
theorem wf_resetWith (cfg : Config) : (State.resetWith cfg).WF cfg where
  memCanonical := reset_mem_wf cfg
  stackFits := Nat.zero_le _
  carryIsBit := .inl rfl
  haltCode _ h := nomatch h

theorem canonical_resetWith (cfg : Config) : (State.resetWith cfg).Canonical cfg where
  wf := wf_resetWith cfg
  indexSmall := Nat.zero_le _
  timerZero := rfl
  fontHeld k _ := resetByte_font cfg k

/-- Settles O46, by `canonical_resetWith`. -/
theorem resetMeetsTheInvariants : Obligations.ResetMeetsTheInvariants := canonical_resetWith

/-- A carry is a bit when its number is at most 1 (R13). -/
theorem carryIsBit_iff (c : Byte) : (c = 0x00#8 ∨ c = 0x01#8) ↔ c.toNat ≤ 1 := by
  rw [← BitVec.toNat_inj, ← BitVec.toNat_inj]
  simp only [BitVec.toNat_ofNat]
  omega

/-- Settles O40: the limit on the carry as a number is the limit the launch checks. -/
theorem testLaunchSetsSixElements : Obligations.TestLaunchSetsSixElements := by
  intro cfg p s
  refine ⟨fun stackFits carryFits => ?_, fun outside => if_neg fun allowed => ?_⟩
  · exact ⟨_, if_pos ⟨stackFits, (carryIsBit_iff p.carry).2 carryFits⟩, fun _ => rfl, rfl, rfl, rfl, rfl, rfl,
      rfl, rfl, rfl, rfl⟩
  · have carryFits := (carryIsBit_iff p.carry).1 allowed.2
    have stackFits := allowed.1
    omega

/-! ### What ticks, loads and runs keep -/

/-- What a running tick and the recorded sample keep, a whole run keeps (R106). -/
theorem run_keeps {cfg : Config} {P : State → Prop}
    (keepTick : ∀ s, s.status = .running → P s → P (runningTick cfg s))
    (keepStamp : ∀ l s, P s → P (s.stamp l)) (samples : List Nat) {s : State} (hs : P s) :
    P (run cfg samples s).state := by
  induction samples generalizing s with
  | nil => exact hs
  | cons now rest ih =>
    cases status : s.status with
    | halted e => exact run_halted status _ ▸ hs
    | running =>
      rw [run_cons_running status]
      rcases pollOnce_cases cfg now s with ⟨-, h⟩ | ⟨-, h⟩
      · exact ih (h ▸ keepStamp _ _ (keepTick s status hs))
      · exact ih (h.symm ▸ hs)

theorem carryOfAdd_isBit (a b : Byte) : carryOfAdd a b = 0x00#8 ∨ carryOfAdd a b = 0x01#8 := by
  unfold carryOfAdd
  split
  · exact .inr rfl
  · exact .inl rfl

theorem wf_runningTick {cfg : Config} {s : State} (running : s.status = .running) (wf : s.WF cfg) :
    (runningTick cfg s).WF cfg where
  memCanonical := (runningTick_mem cfg s).1 ▸ wf.memCanonical
  stackFits := by
    have fits := wf.stackFits
    rcases (tickEnd_runningTick cfg s).stack with ⟨-, room, h⟩ | h
    · rw [h, List.length_append, List.length_singleton]
      omega
    · rwa [h]
  carryIsBit := by
    have ends := tickEnd_runningTick cfg s
    by_cases added : ∃ x y, fetchDecode cfg s = .ok (.add x y)
    · obtain ⟨x, y, front⟩ := added
      exact ends.carry_of_add front ▸ carryOfAdd_isBit _ _
    · push Not at added
      exact ends.carry_of_not_add added ▸ wf.carryIsBit
  haltCode _ halted := ((tickEnd_runningTick cfg s).raised running halted).1

theorem wf_stamp {cfg : Config} (l : LastTick) {s : State} (wf : s.WF cfg) : (s.stamp l).WF cfg :=
  ⟨wf.memCanonical, wf.stackFits, wf.carryIsBit, wf.haltCode⟩

theorem wf_loadProgram {cfg : Config} (bytes : List Byte) {s : State} (wf : s.WF cfg) :
    (loadProgram cfg bytes s).state.WF cfg := by
  have memCanonical := loadProgram_mem_wf bytes wf.memCanonical
  rcases loadProgram_cases cfg bytes s with ⟨-, h⟩ | ⟨-, h⟩ <;> rw [h] at memCanonical ⊢
  · exact wf
  · exact ⟨memCanonical, wf.stackFits, wf.carryIsBit, wf.haltCode⟩

/-- Settles O47: a tick, the recorded sample and a load each keep well-formedness. -/
theorem stepKeepsWellFormedness : Obligations.StepKeepsWellFormedness := by
  refine ⟨fun s t wf ht => ?_, fun cfg s _ wf => ⟨fun t ht => ?_, fun bytes => ?_, fun samples => ?_⟩⟩
  · obtain ⟨running, rfl⟩ := step_next ht
    exact wf_runningTick running wf
  · obtain ⟨-, running, rfl⟩ := tick_next ht
    exact wf_runningTick running wf
  · exact wf_loadProgram bytes wf
  · exact run_keeps (fun _ => wf_runningTick) (fun l _ => wf_stamp l) samples wf

/-- The font lies below the program region, so a load leaves it in place (R4, R98). -/
theorem fontHeld_loadProgram {cfg : Config} (below : cfg.FontBelowProgram) (bytes : List Byte) {s : State}
    (font : s.FontHeld cfg) : (loadProgram cfg bytes s).state.FontHeld cfg := by
  rcases loadProgram_cases cfg bytes s with ⟨-, h⟩ | ⟨-, h⟩ <;> rw [h]
  · exact font
  · intro k hk
    exact (Memory.read_writeBytes_outside cfg bytes s.mem _ (.inl (by omega))).trans (font k hk)

theorem canonical_runningTick {cfg : Config} {s : State} (running : s.status = .running) (canonical : s.Canonical cfg) :
    (runningTick cfg s).Canonical cfg where
  wf := wf_runningTick running canonical.wf
  indexSmall := by
    have ends := tickEnd_runningTick cfg s
    by_cases loaded : ∃ nnn, fetchDecode cfg s = .ok (.ldI nnn)
    · obtain ⟨nnn, front⟩ := loaded
      rw [ends.index_of_ldI front, zextImm_toNat]
      omega
    · push Not at loaded
      exact ends.index_of_not_ldI loaded ▸ canonical.indexSmall
  timerZero := by rw [runningTick_dt, decrementTimer_dt, if_pos canonical.timerZero, canonical.timerZero]
  fontHeld k hk := by
    rw [State.byteAt, (runningTick_mem cfg s).1]
    exact canonical.fontHeld k hk

theorem canonical_stamp {cfg : Config} (l : LastTick) {s : State} (canonical : s.Canonical cfg) :
    (s.stamp l).Canonical cfg :=
  ⟨wf_stamp l canonical.wf, canonical.indexSmall, canonical.timerZero, canonical.fontHeld⟩

theorem canonical_loadProgram {cfg : Config} (below : cfg.FontBelowProgram) (bytes : List Byte) {s : State}
    (canonical : s.Canonical cfg) : (loadProgram cfg bytes s).state.Canonical cfg := by
  have wf := wf_loadProgram bytes canonical.wf
  have font := fontHeld_loadProgram below bytes canonical.fontHeld
  rcases loadProgram_cases cfg bytes s with ⟨-, h⟩ | ⟨-, h⟩ <;> rw [h] at wf font ⊢
  · exact canonical
  · exact ⟨wf, canonical.indexSmall, canonical.timerZero, font⟩

theorem fontBelowProgram_of_legal {cfg : Config} (legal : cfg.Legal) : cfg.FontBelowProgram := legal.2.2.1

/-- Settles O48: as for well-formedness, with the font below the program region for the load. -/
theorem stepKeepsTheCanonicalInvariant : Obligations.StepKeepsTheCanonicalInvariant := by
  refine ⟨fun s t canonical ht => ?_,
    fun cfg s legal canonical => ⟨fun t ht => ?_, fun bytes => ?_, fun samples => ?_⟩⟩
  · obtain ⟨running, rfl⟩ := step_next ht
    exact canonical_runningTick running canonical
  · obtain ⟨-, running, rfl⟩ := tick_next ht
    exact canonical_runningTick running canonical
  · exact canonical_loadProgram (fontBelowProgram_of_legal legal) bytes canonical
  · exact run_keeps (fun _ => canonical_runningTick) (fun l _ => canonical_stamp l) samples canonical

/-! ### What is reachable (R26, R101) -/

section
variable {cfg : Config} {c d : CoreInstance} {s t : State}

theorem canonical_advances (h : Advances cfg c d) (hc : c.state = some s) (hd : d.state = some t)
    (canonical : s.Canonical cfg) : t.Canonical cfg := by
  rcases advances_cases h with ⟨hnone, -⟩ | ⟨s', t', hs, ht, ends⟩
  · cases hnone.symm.trans hc
  · cases hs.symm.trans hc
    cases ht.symm.trans hd
    rcases ends with rfl | ⟨legal, bytes, rfl⟩ | ⟨running, rfl | ⟨now, rfl⟩⟩
    · exact canonical
    · exact canonical_loadProgram (fontBelowProgram_of_legal legal) bytes canonical
    · exact canonical_runningTick running canonical
    · exact canonical_stamp _ (canonical_runningTick running canonical)

theorem loadProgram_stack (cfg : Config) (bytes : List Byte) (s : State) :
    (loadProgram cfg bytes s).state.stack = s.stack := by
  rcases loadProgram_cases cfg bytes s with ⟨-, h⟩ | ⟨-, h⟩ <;> rw [h]

/-- Between two Resets the stack changes only where a CALL is executed, which appends its own address (R70, R71). -/
theorem advances_stack (h : Advances cfg c d) (hc : c.state = some s) (hd : d.state = some t) :
    t.stack = s.stack ∨ (s.AtCall cfg ∧ t.stack = s.stack ++ [s.pc]) := by
  have ticked (running : s.status = .running) :
      (runningTick cfg s).stack = s.stack ∨ (s.AtCall cfg ∧ (runningTick cfg s).stack = s.stack ++ [s.pc]) := by
    rcases (tickEnd_runningTick cfg s).stack with ⟨front, -, pushed⟩ | kept
    · exact .inr ⟨⟨running, front⟩, pushed⟩
    · exact .inl kept
  rcases advances_cases h with ⟨hnone, -⟩ | ⟨s', t', hs, ht, ends⟩
  · cases hnone.symm.trans hc
  · cases hs.symm.trans hc
    cases ht.symm.trans hd
    rcases ends with rfl | ⟨-, bytes, rfl⟩ | ⟨running, rfl | ⟨now, rfl⟩⟩
    · exact .inl rfl
    · exact .inl (loadProgram_stack cfg bytes s)
    · exact ticked running
    · exact ticked running

/-- Earlier than `c`, with no Reset since, a CALL was executed at `a` on the stack `below`, and one tick appended `a`
to it (R26). -/
def PushedByCall (cfg : Config) (c : CoreInstance) (below : List Word) (a : Word) : Prop :=
  ∃ (d e : CoreInstance) (u t : State), Reachable cfg d ∧ d.state = some u ∧ u.AtCall cfg ∧ u.pc = a ∧
    u.stack = below ∧ Advances cfg d e ∧ e.state = some t ∧ t.stack = below ++ [a] ∧ LeadsTo cfg e c

/-- Every entry of the stack, with the entries below it, was pushed by a CALL (R26). -/
def StackFromCalls (cfg : Config) (c : CoreInstance) (stack : List Word) : Prop :=
  ∀ (below : List Word) (a : Word) (above : List Word), stack = below ++ a :: above → PushedByCall cfg c below a

theorem stackFromCalls_nil (cfg : Config) (c : CoreInstance) : StackFromCalls cfg c [] := by
  intro below a above h
  simp at h

theorem StackFromCalls.advance {stack : List Word} (h : StackFromCalls cfg c stack) (last : Advances cfg c d) :
    StackFromCalls cfg d stack := by
  intro below a above hst
  obtain ⟨d', e, u, t, reach, hd, atCall, pc, hbelow, adv, he, top, leads⟩ := h below a above hst
  exact ⟨d', e, u, t, reach, hd, atCall, pc, hbelow, adv, he, top, .advance leads last⟩

/-- A pushed entry is the last of the stack, or an entry of the stack below. -/
theorem StackFromCalls.push {stack : List Word} {w : Word} (h : StackFromCalls cfg c stack)
    (top : PushedByCall cfg c stack w) : StackFromCalls cfg c (stack ++ [w]) := by
  intro below a above hst
  rcases List.eq_nil_or_concat above with rfl | ⟨above, x, rfl⟩
  · obtain ⟨rfl, rfl⟩ : stack = below ∧ w = a := by simpa using hst
    exact top
  · have hst : stack ++ [w] = (below ++ a :: above) ++ [x] := by simpa using hst
    exact h below a above (List.append_inj_left' hst rfl)

theorem StackFromCalls.advances (h : StackFromCalls cfg c s.stack) (reach : Reachable cfg c) (last : Advances cfg c d)
    (hc : c.state = some s) (hd : d.state = some t) : StackFromCalls cfg d t.stack := by
  rcases advances_stack last hc hd with kept | ⟨atCall, pushed⟩
  · exact kept ▸ h.advance last
  · rw [pushed]
    exact (h.advance last).push ⟨c, d, s, t, reach, hc, atCall, rfl, rfl, last, hd, pushed, .refl d⟩

theorem advances_state_of_some (h : Advances cfg c d) (hd : d.state = some t) : ∃ s, c.state = some s := by
  rcases advances_cases h with ⟨-, hnone⟩ | ⟨s, -, hs, -⟩
  · cases hnone.symm.trans hd
  · exact ⟨s, hs⟩

end

/-- What R26 says of everything reachable: Reset meets it and every advance keeps it. -/
theorem reachable_invariant {cfg : Config} {c : CoreInstance} (reach : Reachable cfg c) :
    ∀ s, c.state = some s → s.Canonical cfg ∧ StackFromCalls cfg c s.stack := by
  induction reach with
  | create => exact fun s hs => nomatch hs
  | reset _ call =>
    obtain ⟨-, -, rfl⟩ := reset_next call
    intro s hs
    cases hs
    exact ⟨canonical_resetWith cfg, stackFromCalls_nil cfg _⟩
  | advance reach last ih =>
    intro t ht
    obtain ⟨s, hs⟩ := advances_state_of_some last ht
    obtain ⟨canonical, fromCalls⟩ := ih s hs
    exact ⟨canonical_advances last hs ht canonical, fromCalls.advances reach last hs ht⟩

/-- Settles O49, by `reachable_invariant`, an induction over the calls and clock samples made so far. -/
theorem reachableStatesMeetTheInvariants : Obligations.ReachableStatesMeetTheInvariants :=
  fun _ _ s _ reach hs => reachable_invariant reach s hs

end Sys2Proof.Machine

/-! PROOFS. Fetch, the bytes of an instruction, and the memory a step leaves (spec/20_memory.md, R34 and R45). -/

namespace Sys2Proof

/-! ### An instruction as two bytes (R34, R45) -/

/-- Under a legal configuration the selectors are distinct (R4), so the decoder finds the encoder's arm again. -/
theorem decode_encode {cfg : Config} (legal : cfg.Legal) (i : Instr) : decode cfg (encode cfg i) = .instr i := by
  obtain ⟨subDistinct, ⟨setiNonzero, callNonzero, famDistinct⟩, -⟩ := legal
  cases i with
  | cls => simp [decode, encode, subDistinct]
  | add x y => simp [decode, encode]
  | ldI nnn => simp [decode, encode, setiNonzero]
  | call nnn => simp [decode, encode, callNonzero, famDistinct.symm]

theorem decodeBytes_of_decode {cfg : Config} {hi lo : Byte} {i : Instr}
    (h : decode cfg (wordOfBytes hi lo) = .instr i) (rest : List Byte) :
    decodeBytes cfg (hi :: lo :: rest) = .ok (i, rest) := by
  simp only [decodeBytes, h]

/-- The byte at the lower address is worth 256 times the other (R34). -/
theorem toNat_eq_highByte_lowByte (op : Word) : op.toNat = 256 * (highByte op).toNat + (lowByte op).toNat := by
  rw [highByte_toNat, lowByte_toNat, Nat.div_add_mod]

/-- Settles O6: the two bytes join to the word again, which decodes to its instruction. -/
theorem byteStreamHeadDecodes : Obligations.ByteStreamHeadDecodes := by
  intro cfg i rest legal
  refine ⟨⟨_, _, rfl, toNat_eq_highByte_lowByte (encode cfg i)⟩, ?_, fun _ => rfl⟩
  exact decodeBytes_of_decode ((wordOfBytes_bytes (encode cfg i)).symm ▸ decode_encode legal i) rest

end Sys2Proof

namespace Sys2Proof.Machine

/-! ### Fetch (R34 to R37) -/

theorem fetch_inRange {cfg : Config} {s : State} (inRange : s.pc.toNat + 1 < cfg.memSize) :
    fetch cfg s = .ok (wordOfBytes (s.byteAt cfg s.pc.toNat) (s.byteAt cfg (s.pc.toNat + 1))) :=
  if_neg (Nat.not_le.2 inRange)

theorem fetch_outOfRange {cfg : Config} {s : State} (out : cfg.memSize ≤ s.pc.toNat + 1) :
    fetch cfg s = .error (.fetchOutOfRange s.pc) := if_pos out

/-- Settles O8: the word joined from the two bytes, taken apart as a number. -/
theorem fetchIsBigEndian : Obligations.FetchIsBigEndian := by
  intro cfg s inRange
  have low := (s.byteAt cfg (s.pc.toNat + 1)).isLt
  refine ⟨_, fetch_inRange inRange, ?_, ?_⟩ <;> rw [wordOfBytes_toNat] <;> omega

theorem fetchDecode_outOfRange {cfg : Config} {s : State} (out : cfg.memSize ≤ s.pc.toNat + 1) :
    fetchDecode cfg s = .error (.fetchOutOfRange s.pc) := by
  simp only [fetchDecode, fetch_outOfRange out]

/-- Settles O9: the front end raises, so the tick keeps only the decrement (R80, R84). -/
theorem fetchOutOfRangeHalts : Obligations.FetchOutOfRangeHalts := by
  intro s running out
  rw [step_running running, runningTick_of_error (fetchDecode_outOfRange out), decrementTimer_eq]
  rfl

/-! ### Memory during a run (R32, R41) -/

/-- Settles O50: a step is a tick, and a tick keeps the whole memory and the timestamp. -/
theorem stepsNeverWriteMemory : Obligations.StepsNeverWriteMemory := by
  intro s t ht
  obtain ⟨-, rfl⟩ := step_next ht
  obtain ⟨memKept, stampKept⟩ := runningTick_mem Config.standard s
  exact ⟨stampKept, fun cfg a => by rw [State.byteAt, State.byteAt, memKept]⟩

/-! ### The canonical form (R30) -/

/-- Where addresses rise, a listed byte is what its address reads as. -/
theorem Memory.read_of_mem (cfg : Config) {m : Memory} (rising : m.Pairwise fun c d => c.1 < d.1) {c : Host.Cell}
    (hc : c ∈ m) : Memory.read cfg m c.1 = c.2 := by
  induction m with
  | nil => cases hc
  | cons e m ih =>
    obtain ⟨headBelow, rising⟩ := List.pairwise_cons.1 rising
    rw [Memory.read_cons]
    rcases List.mem_cons.1 hc with rfl | hc
    · exact if_pos rfl
    · rw [if_neg (headBelow c hc).ne', ih rising hc]

/-- A canonical memory lists exactly the bytes that read otherwise than after reset. -/
theorem Memory.mem_iff_read {cfg : Config} {m : Memory} (wf : Memory.wf cfg m) (c : Host.Cell) :
    c ∈ m ↔ Memory.read cfg m c.1 = c.2 ∧ c.2 ≠ resetByte cfg c.1 := by
  obtain ⟨rising, entries⟩ := wf
  refine ⟨fun hc => ⟨Memory.read_of_mem cfg rising hc, (entries c hc).2⟩, fun ⟨reads, notReset⟩ => ?_⟩
  have listed : ∃ d ∈ m, d.1 = c.1 := by
    by_contra! notListed
    exact notReset (reads.symm.trans (Memory.read_of_notListed cfg notListed))
  obtain ⟨d, hd, address⟩ := listed
  have byte : d.2 = c.2 := by rw [← Memory.read_of_mem cfg rising hd, address, reads]
  exact Prod.ext address byte ▸ hd

/-- Settles O55: by `Memory.mem_iff_read` the two list the same entries, and both list them in rising order. -/
theorem canonicalMemoryIsUnique : Obligations.CanonicalMemoryIsUnique := by
  intro cfg m n wfm wfn sameReads
  have sameEntries (c : Host.Cell) : c ∈ m ↔ c ∈ n := by
    rw [Memory.mem_iff_read wfm, Memory.mem_iff_read wfn, sameReads]
  have asymm : Std.Asymm fun c d : Host.Cell => c.1 < d.1 := ⟨fun _ _ => Nat.lt_asymm⟩
  exact wfm.1.eq_of_mem_iff wfn.1 sameEntries

end Sys2Proof.Machine

/-! PROOFS. The decoder's arms, the accepted words and the assembler's text (spec/30_encoding.md). -/

namespace Sys2Proof

/-! ### The arms of the decoder (R50) -/

section
variable {cfg : Config} {op : Word}

theorem decode_add (family : familyField op = 0#4) (add : subField op = cfg.addSub) :
    decode cfg op = .instr (.add (xField op) (yField op)) := by
  simp only [decode, if_pos family, if_pos add]

theorem decode_cls (family : familyField op = 0#4) (notAdd : subField op ≠ cfg.addSub)
    (cls : subField op = cfg.clsSub) : decode cfg op = .instr .cls := by
  simp only [decode, if_pos family, if_neg notAdd, if_pos cls]

theorem decode_unknownSub (family : familyField op = 0#4) (notAdd : subField op ≠ cfg.addSub)
    (notCls : subField op ≠ cfg.clsSub) : decode cfg op = .invalid op := by
  simp only [decode, if_pos family, if_neg notAdd, if_neg notCls]

theorem decode_ldI (family : familyField op ≠ 0#4) (seti : familyField op = cfg.setiFam) :
    decode cfg op = .instr (.ldI (nnnField op)) := by
  simp only [decode, if_neg family, if_pos seti]

theorem decode_call (family : familyField op ≠ 0#4) (notSeti : familyField op ≠ cfg.setiFam)
    (call : familyField op = cfg.callFam) : decode cfg op = .instr (.call (nnnField op)) := by
  simp only [decode, if_neg family, if_neg notSeti, if_pos call]

theorem decode_unknownFamily (family : familyField op ≠ 0#4) (notSeti : familyField op ≠ cfg.setiFam)
    (notCall : familyField op ≠ cfg.callFam) : decode cfg op = .invalid op := by
  simp only [decode, if_neg family, if_neg notSeti, if_neg notCall]

end

/-- Settles O2: the six arms of the decoder, with each field read as the number it names. -/
theorem decodeFollowsTheTwoTiers : Obligations.DecodeFollowsTheTwoTiers := by
  intro cfg op
  have zeroFamily : (familyField op).toNat = 0 ↔ familyField op = 0#4 := BitVec.toNat_inj (y := 0#4)
  simp only [← familyField_toNat, ← subField_toNat, ← xField_toNat, ← yField_toNat, ← nnnField_toNat,
    Ne, zeroFamily, BitVec.toNat_inj]
  exact ⟨fun family add => ⟨_, _, rfl, rfl, decode_add family add⟩, decode_cls, decode_unknownSub,
    fun family seti => ⟨_, rfl, decode_ldI family seti⟩,
    fun family notSeti call => ⟨_, rfl, decode_call family notSeti call⟩, decode_unknownFamily⟩

/-! ### Which words each arm accepts (R52, R53) -/

section
variable {cfg : Config} {op : Word}

theorem decode_eq_cls_iff (legal : cfg.SubSelectorsDistinct) :
    decode cfg op = .instr .cls ↔ familyField op = 0#4 ∧ subField op = cfg.clsSub := by
  refine ⟨fun h => ?_, fun ⟨family, cls⟩ => decode_cls family (cls ▸ legal) cls⟩
  rcases decode_instr_cases h with ⟨-, -, ⟨⟩⟩ | ⟨family, -, cls, -⟩ | ⟨-, -, ⟨⟩⟩ | ⟨-, -, -, ⟨⟩⟩
  exact ⟨family, cls⟩

theorem exists_decode_eq_add_iff :
    (∃ x y, decode cfg op = .instr (.add x y)) ↔ familyField op = 0#4 ∧ subField op = cfg.addSub := by
  refine ⟨fun ⟨x, y, h⟩ => ?_, fun ⟨family, add⟩ => ⟨_, _, decode_add family add⟩⟩
  rcases decode_instr_cases h with ⟨family, add, -⟩ | ⟨-, -, -, ⟨⟩⟩ | ⟨-, -, ⟨⟩⟩ | ⟨-, -, -, ⟨⟩⟩
  exact ⟨family, add⟩

theorem exists_decode_eq_ldI_iff (legal : cfg.FamiliesDistinct) :
    (∃ nnn, decode cfg op = .instr (.ldI nnn)) ↔ familyField op = cfg.setiFam := by
  refine ⟨fun ⟨nnn, h⟩ => ?_, fun seti => ⟨_, decode_ldI (seti ▸ legal.1) seti⟩⟩
  rcases decode_instr_cases h with ⟨-, -, ⟨⟩⟩ | ⟨-, -, -, ⟨⟩⟩ | ⟨-, seti, -⟩ | ⟨-, -, -, ⟨⟩⟩
  exact seti

theorem exists_decode_eq_call_iff (legal : cfg.FamiliesDistinct) :
    (∃ nnn, decode cfg op = .instr (.call nnn)) ↔ familyField op = cfg.callFam := by
  obtain ⟨-, callNonzero, distinct⟩ := legal
  refine ⟨fun ⟨nnn, h⟩ => ?_, fun call => ⟨_, decode_call (call ▸ callNonzero) (call ▸ distinct.symm) call⟩⟩
  rcases decode_instr_cases h with ⟨-, -, ⟨⟩⟩ | ⟨-, -, -, ⟨⟩⟩ | ⟨-, -, ⟨⟩⟩ | ⟨-, -, call, -⟩
  exact call

/-- A word is invalid exactly where it decodes to no instruction (R53). -/
theorem decode_eq_invalid_iff : decode cfg op = .invalid op ↔
    decode cfg op ≠ .instr .cls ∧ (¬ ∃ x y, decode cfg op = .instr (.add x y)) ∧
      (¬ ∃ nnn, decode cfg op = .instr (.ldI nnn)) ∧ ¬ ∃ nnn, decode cfg op = .instr (.call nnn) := by
  cases h : decode cfg op with
  | instr i => cases i <;> simp
  | invalid w => simp [decode_invalid_word h]

end

/-! ### The masks of the opcode table -/

theorem fieldsWord_and (f x y z f' x' y' z' : Nibble) :
    fieldsWord f x y z &&& fieldsWord f' x' y' z' = fieldsWord (f &&& f') (x &&& x') (y &&& y') (z &&& z') := by
  refine BitVec.and_append.trans ?_
  rw [BitVec.and_append, BitVec.and_append]
  rfl

theorem immWord_and (f f' : Nibble) (nnn nnn' : Imm12) :
    immWord f nnn &&& immWord f' nnn' = immWord (f &&& f') (nnn &&& nnn') := BitVec.and_append

/-- The mask of the family-zero rows keeps the family and the sub-selector. -/
theorem and_0xF00F (op : Word) : op &&& 0xF00F#16 = fieldsWord (familyField op) 0#4 0#4 (subField op) :=
  calc op &&& 0xF00F#16
    _ = fieldsWord (familyField op) (xField op) (yField op) (subField op) &&&
          fieldsWord (BitVec.allOnes 4) 0#4 0#4 (BitVec.allOnes 4) := by rw [fieldsWord_of_fields]; rfl
    _ = fieldsWord (familyField op) 0#4 0#4 (subField op) := by
      rw [fieldsWord_and, BitVec.and_allOnes, BitVec.and_allOnes, BitVec.and_zero, BitVec.and_zero]

/-- The mask of the other rows keeps the family. -/
theorem and_0xF000 (op : Word) : op &&& 0xF000#16 = immWord (familyField op) 0#12 :=
  calc op &&& 0xF000#16
    _ = immWord (familyField op) (nnnField op) &&& immWord (BitVec.allOnes 4) 0#12 := by
      rw [immWord_of_fields]; rfl
    _ = immWord (familyField op) 0#12 := by rw [immWord_and, BitVec.and_allOnes, BitVec.and_zero]

theorem and_0xF00F_eq_iff {op : Word} (f z : Nibble) :
    op &&& 0xF00F#16 = fieldsWord f 0#4 0#4 z ↔ familyField op = f ∧ subField op = z := by
  rw [and_0xF00F]
  refine ⟨fun h => ⟨?_, ?_⟩, fun ⟨family, sub⟩ => by rw [family, sub]⟩
  · simpa using congrArg familyField h
  · simpa using congrArg subField h

theorem and_0xF000_eq_iff {op : Word} (f : Nibble) :
    op &&& 0xF000#16 = immWord f 0#12 ↔ familyField op = f := by
  rw [and_0xF000]
  exact ⟨fun h => by simpa using congrArg familyField h, fun family => by rw [family]⟩

/-- Settles O3: each row's mask and match say the same of the selectors as the decoder's arm for it. -/
theorem acceptedWordsAreTheTableRows : Obligations.AcceptedWordsAreTheTableRows := by
  intro op
  obtain ⟨subDistinct, famDistinct, -⟩ := standard_legal
  have cls : op &&& 0xF00F#16 = 0x0000#16 ↔ decode Config.standard op = .instr .cls :=
    (and_0xF00F_eq_iff 0#4 0#4).trans (decode_eq_cls_iff subDistinct).symm
  have add : op &&& 0xF00F#16 = 0x0004#16 ↔ ∃ x y, decode Config.standard op = .instr (.add x y) :=
    (and_0xF00F_eq_iff 0#4 4#4).trans (exists_decode_eq_add_iff (cfg := Config.standard)).symm
  have ldI : op &&& 0xF000#16 = 0xA000#16 ↔ ∃ nnn, decode Config.standard op = .instr (.ldI nnn) :=
    (and_0xF000_eq_iff 0xA#4).trans (exists_decode_eq_ldI_iff famDistinct).symm
  have call : op &&& 0xF000#16 = 0x2000#16 ↔ ∃ nnn, decode Config.standard op = .instr (.call nnn) :=
    (and_0xF000_eq_iff 0x2#4).trans (exists_decode_eq_call_iff famDistinct).symm
  refine ⟨cls, add, ldI, call, ?_⟩
  simp only [decode_eq_invalid_iff, Ne, cls, add, ldI, call]

/-! ### Encoding a decoded instruction (R51, R55) -/

/-- Outside CLS the selectors and the operands make up the whole word. -/
theorem encode_of_decode {cfg : Config} {op : Word} {i : Instr} (h : decode cfg op = .instr i) (notCls : i ≠ .cls) :
    encode cfg i = op := by
  rcases decode_instr_cases h with
    ⟨family, sub, rfl⟩ | ⟨-, -, -, rfl⟩ | ⟨-, family, rfl⟩ | ⟨-, -, family, rfl⟩
  · rw [encode, ← family, ← sub, fieldsWord_of_fields]
  · exact absurd rfl notCls
  · rw [encode, ← family, immWord_of_fields]
  · rw [encode, ← family, immWord_of_fields]

/-- CLS keeps the selectors only (D23), in the places its mask keeps. -/
theorem encode_cls_of_decode {cfg : Config} {op : Word} (h : decode cfg op = .instr .cls) :
    encode cfg .cls = op &&& 0xF00F#16 := by
  rcases decode_instr_cases h with ⟨-, -, ⟨⟩⟩ | ⟨family, -, sub, -⟩ | ⟨-, -, ⟨⟩⟩ | ⟨-, -, -, ⟨⟩⟩
  rw [encode, and_0xF00F, family, sub]

/-- Settles O5: a word is its fields, and the mask keeps those that CLS has. -/
theorem encodeOfDecodeIsTheWord : Obligations.EncodeOfDecodeIsTheWord :=
  fun _ _ _ h => ⟨encode_of_decode h, fun cls => by subst cls; exact encode_cls_of_decode h⟩

/-! ### The assembler's text (R55, R56) -/

@[simp] theorem hexValue_hexDigit (d : Nibble) : hexValue (hexDigit d) = some d := by
  revert d
  decide

/-- A hex digit neither starts a comment nor ends a token. -/
theorem hexDigit_inToken (d : Nibble) :
    hexDigit d ≠ ';' ∧ hexDigit d ≠ ' ' ∧ hexDigit d ≠ '\t' ∧ hexDigit d ≠ ',' := by
  revert d
  decide

@[simp] theorem parseReg_regText (x : Nibble) : parseReg ['V', hexDigit x] = some x := by
  simp [parseReg]

@[simp] theorem parseImm_immText (nnn : Imm12) : parseImm (immText nnn) = some nnn := by
  have joined : nnn.extractLsb' 8 4 ++ (nnn.extractLsb' 4 4 ++ nnn.extractLsb' 0 4) = nnn := by
    have low : nnn.extractLsb' 4 4 ++ nnn.extractLsb' 0 4 = nnn.extractLsb' 0 8 :=
      BitVec.extractLsb'_append_extractLsb'_eq_extractLsb' rfl
    exact low ▸ (BitVec.extractLsb'_append_extractLsb'_eq_extractLsb' rfl).trans BitVec.extractLsb'_eq_self
  simp [parseImm, immText, joined]

@[simp] theorem parseWord_wordText (w : Word) : parseWord (wordText w) = some w := by
  simp [parseWord, wordText, fieldsWord_of_fields]

/-- The tokens of an item's text: its mnemonic or directive, then its operands with a comma between. -/
def asmTokens : AsmItem → List (List Char)
  | .instr .cls => [['C', 'L', 'S']]
  | .instr (.add x y) => [['A', 'D', 'D'], ['V', hexDigit x], [','], ['V', hexDigit y]]
  | .instr (.ldI nnn) => [['L', 'D'], ['I'], [','], immText nnn]
  | .instr (.call nnn) => [['C', 'A', 'L', 'L'], immText nnn]
  | .word w => [['.', 'w', 'o', 'r', 'd'], wordText w]

/-- The tokenizer splits an item's text at its blanks and its comma. -/
theorem lineTokens_asmText (item : AsmItem) : lineTokens (asmText item) = asmTokens item := by
  rcases item with (_ | ⟨x, y⟩ | nnn | nnn) | w
  · rfl
  all_goals simp [asmText, asmTokens, immText, wordText, lineTokens, stripComment, scanTokens, pushToken,
    hexDigit_inToken]

/-- No mnemonic or directive ends with a colon, so none is dropped as a label. -/
theorem dropLabel_asmTokens (item : AsmItem) : dropLabel (asmTokens item) = asmTokens item := by
  rcases item with (_ | _ | _ | _) | _ <;> rfl

/-- The mnemonic picks the item's class, and each operand's text parses back to the operand. -/
theorem parseItem_asmTokens (item : AsmItem) : parseItem (asmTokens item) = some item := by
  rcases item with (_ | _ | _ | _) | _
  · rfl
  all_goals simp [asmTokens, parseItem]

/-- A line whose tokens carry no label and spell an item holds that item alone. -/
theorem parseLine_of_parseItem {cs : List Char} {item : AsmItem}
    (h : parseItem (dropLabel (lineTokens cs)) = some item) :
    parseLine cs = some [item] := by
  unfold parseLine
  cases tokens : dropLabel (lineTokens cs) with
  | nil => rw [tokens] at h; cases h
  | cons t ts => rw [tokens] at h; simp only [h, Option.map_some]

/-- Settles O7: the line's tokens are the item's, carry no label, and spell the item. -/
theorem assemblerTextReadsBack : Obligations.AssemblerTextReadsBack := by
  intro item
  apply parseLine_of_parseItem
  rw [lineTokens_asmText, dropLabel_asmTokens, parseItem_asmTokens]

end Sys2Proof

namespace Sys2Proof.Machine

/-! ### The invalid word (R54, R78) -/

theorem fetchDecode_invalid {cfg : Config} {s : State} {op : Word} (fetched : fetch cfg s = .ok op)
    (invalid : decode cfg op = .invalid op) : fetchDecode cfg s = .error (.invalidOpcode op) := by
  simp only [fetchDecode, fetched, invalid]

/-- Settles O10: the fetched word is the invalid one, so the front end raises and the tick keeps only the decrement
(R80). -/
theorem invalidWordHalts : Obligations.InvalidWordHalts := by
  intro s op running inRange bytes invalid
  have word : wordOfBytes (s.byteAt Config.standard s.pc.toNat) (s.byteAt Config.standard (s.pc.toNat + 1)) = op := by
    apply BitVec.eq_of_toNat_eq
    rw [wordOfBytes_toNat, bytes, Nat.mul_comm]
  have fetched : fetch Config.standard s = .ok op := word ▸ fetch_inRange inRange
  rw [step_running running, runningTick_of_error (fetchDecode_invalid fetched invalid), decrementTimer_eq]
  rfl

end Sys2Proof.Machine

/-! PROOFS. ADD and CLS: what they write and what they leave unchanged (spec/40_family0.md). -/

namespace Sys2Proof.Machine

/-! ### What ADD and CLS answer (R60, R62) -/

theorem exec_add (x y : Nibble) (s : State) :
    exec (.add x y) s = .next (incrementPc
      (writeV x (BitVec.ofNat 8 ((readV x s).toNat + (readV y s).toNat))
        (writeC (carryOfAdd (readV x s) (readV y s)) s))) := rfl

theorem exec_cls (s : State) : exec .cls s = .next (incrementPc (displayClear s)) := rfl

@[simp] theorem readV_displayClear (z : Nibble) (s : State) : readV z (displayClear s) = readV z s := rfl

/-- Below the top of the address range the advance does not wrap (R104). -/
theorem incrementPc_pc_toNat {s : State} (noWrap : s.pc.toNat + 2 < 65536) :
    (incrementPc s).pc.toNat = s.pc.toNat + 2 := by
  rw [incrementPc_pc, BitVec.toNat_add]
  exact Nat.mod_eq_of_lt noWrap

/-! ### The sum and the carry (R60, R61) -/

/-- R60 compares an operand with 255 less the other; that is comparing their sum with 255. -/
theorem carryOfAdd_eq_ite (a b : Byte) :
    carryOfAdd a b = if 255 < a.toNat + b.toNat then 0x01#8 else 0x00#8 := by
  have := b.isLt
  exact if_congr (by omega) rfl rfl

/-- Settles O11: ADD's encoding decodes back, and each update writes what it says. -/
theorem addResult : Obligations.AddResult := by
  intro x y s
  refine ⟨fun cfg legal => decode_encode legal (.add x y), _, exec_add x y s, ?_, ?_, incrementPc_pc_toNat⟩
  · rw [readV_incrementPc, readV_writeV_same, BitVec.toNat_ofNat]
  · exact carryOfAdd_eq_ite (readV x s) (readV y s)

/-- Settles O12: the true sum is below 512, so its quotient by 256 is the carry and its remainder is V[x]. -/
theorem addCarryIsTheNinthBit : Obligations.AddCarryIsTheNinthBit := by
  intro x y s
  obtain ⟨-, t, ht, sum, carry, -⟩ := addResult x y s
  have ninthBit : t.carry.toNat = ((readV x s).toNat + (readV y s).toNat) / 256 := by
    have := (readV x s).isLt
    have := (readV y s).isLt
    rw [carry, apply_ite BitVec.toNat]
    simp only [BitVec.toNat_ofNat]
    split <;> omega
  exact ⟨t, ht, ninthBit, by rw [ninthBit, sum, Nat.div_add_mod]⟩

/-- Settles O18: only V[x], the carry and the PC are written. -/
theorem addFrame : Obligations.AddFrame := by
  intro x y s t h
  cases (exec_add x y s).symm.trans h
  refine ⟨fun z other => ?_, rfl, rfl, rfl, rfl, rfl, rfl, fun cfg a => ?_⟩
  · rw [readV_incrementPc, readV_writeV_other other, readV_writeC]
  · rw [byteAt_incrementPc, byteAt_writeV, byteAt_writeC]

/-! ### CLS (R62) -/

/-- Settles O13: the two fields between the selectors do not reach the decoder (D23), and CLS adds its event. -/
theorem clsResult : Obligations.ClsResult := by
  intro s
  refine ⟨fun cfg x y legal => ?_, _, exec_cls s, rfl, rfl, incrementPc_pc_toNat⟩
  obtain ⟨subDistinct, -⟩ := legal
  exact (decode_eq_cls_iff subDistinct).2 ⟨familyField_fieldsWord 0#4 x y _, subField_fieldsWord 0#4 x y _⟩

/-- Settles O19: only the trace and the PC are written. -/
theorem clsFrame : Obligations.ClsFrame := by
  intro s t h
  cases (exec_cls s).symm.trans h
  refine ⟨fun z => ?_, rfl, rfl, rfl, rfl, rfl, rfl, fun cfg a => ?_⟩
  · rw [readV_incrementPc, readV_displayClear]
  · rw [byteAt_incrementPc, byteAt_displayClear]

end Sys2Proof.Machine

/-! PROOFS. LD I: what it writes and what it leaves unchanged (spec/41_set_index.md). -/

namespace Sys2Proof.Machine

theorem exec_ldI (nnn : Imm12) (s : State) :
    exec (.ldI nnn) s = .next (incrementPc (writeI (zextImm nnn) s)) := rfl

@[simp] theorem readV_writeI (z : Nibble) (w : Word) (s : State) : readV z (writeI w s) = readV z s := rfl

/-- Settles O14: LD I's encoding decodes back, and the immediate keeps its value when widened (R48). -/
theorem ldIResult : Obligations.LdIResult := by
  intro nnn s
  refine ⟨fun cfg legal => decode_encode legal (.ldI nnn), _, exec_ldI nnn s, ?_, rfl, incrementPc_pc_toNat⟩
  rw [incrementPc_index, writeI_index, zextImm_toNat]

/-- Settles O20: only the index and the PC are written. -/
theorem ldIFrame : Obligations.LdIFrame := by
  intro nnn s t h
  cases (exec_ldI nnn s).symm.trans h
  refine ⟨fun z => ?_, rfl, rfl, rfl, rfl, rfl, rfl, fun cfg a => ?_⟩
  · rw [readV_incrementPc, readV_writeI]
  · rw [byteAt_incrementPc, byteAt_writeI]

end Sys2Proof.Machine

/-! PROOFS. The stack primitives and CALL: what they answer and leave unchanged, and that no tick shortens the stack
(spec/42_call_and_stack.md). -/

namespace Sys2Proof.Machine

/-! ### Push and Pop (R68, R69) -/

/-- Settles O22: both branches of Push, the appended value being the last entry. -/
theorem pushAppendsOrOverflows : Obligations.PushAppendsOrOverflows := by
  intro cfg w s
  exact ⟨push_full, fun room => ⟨_, push_room room, List.getLast?_concat, rfl⟩⟩

theorem pop_empty {s : State} (empty : s.stack = []) : pop s = .error .stackUnderflow := by
  simp [pop, empty]

theorem pop_concat {s : State} {below : List Word} {w : Word} (top : s.stack = below ++ [w]) :
    pop s = .ok (w, { s with stack := below }) := by
  simp [pop, top]

/-- Pop undoes the Push of a value. -/
theorem pop_of_push {cfg : Config} {w : Word} {s t : State} (pushed : push cfg w s = .ok t) : pop t = .ok (w, s) := by
  rcases push_cases pushed with ⟨-, overflow⟩ | ⟨-, appended⟩
  · cases overflow
  · cases appended
    exact pop_concat rfl

/-! ### CALL (R70) -/

theorem exec_call_room {s : State} (room : s.stack.length ≠ Config.standard.stackCap) (nnn : Imm12) :
    exec (.call nnn) s = .next { s with stack := s.stack ++ [s.pc], pc := zextImm nnn } := by
  rw [exec_eq, execute, callBody_room room, complete_stay]

theorem exec_call_full {s : State} (full : s.stack.length = Config.standard.stackCap) (nnn : Imm12) :
    exec (.call nnn) s = .next (raiseFatal .stackOverflow s) := by
  rw [exec_eq, execute, callBody_full full, complete_raised]

/-- Settles O15: CALL's encoding decodes back, and the body is known with room and on a full stack. -/
theorem callResult : Obligations.CallResult := by
  intro nnn s
  refine ⟨fun cfg legal => decode_encode legal (.call nnn), fun room => ?_, fun cfg room => ?_, fun cfg full => ?_⟩
  · exact ⟨_, exec_call_room room nnn, rfl, zextImm_toNat nnn, rfl⟩
  · exact ⟨_, callBody_room room nnn, rfl, zextImm_toNat nnn⟩
  · exact callBody_full full nnn

/-- Settles O21: with room only the stack and the PC are written, on a full stack only the status. -/
theorem callFrame : Obligations.CallFrame := by
  intro nnn s t h
  rcases eq_or_ne s.stack.length Config.standard.stackCap with full | room
  · cases (exec_call_full full nnn).symm.trans h
    exact ⟨fun _ => rfl, rfl, rfl, rfl, rfl, rfl, fun room => absurd full room, fun _ => ⟨rfl, rfl⟩, fun _ _ => rfl⟩
  · cases (exec_call_room room nnn).symm.trans h
    exact ⟨fun _ => rfl, rfl, rfl, rfl, rfl, rfl, fun _ => rfl, fun full => absurd full room, fun _ _ => rfl⟩

/-! ### No instruction pops (R71) -/

/-- An executed instruction keeps the stack or, being a CALL, appends its own address. -/
theorem complete_execute_stack (cfg : Config) (i : Instr) (s : State) :
    (complete (execute cfg i s)).stack = s.stack ∨ (complete (execute cfg i s)).stack = s.stack ++ [s.pc] := by
  rcases complete_execute_cases cfg i s with
    ⟨-, cleared⟩ | ⟨x, y, -, added⟩ | ⟨nnn, -, loaded⟩ | ⟨nnn, -, -, called⟩ | ⟨nnn, -, -, overflowed⟩
  · exact .inl (cleared ▸ rfl)
  · exact .inl (added ▸ rfl)
  · exact .inl (loaded ▸ rfl)
  · exact .inr (called ▸ rfl)
  · exact .inl (overflowed ▸ rfl)

/-- Settles O23: Pop's two branches, Pop after Push, and what an executed instruction does to the stack. -/
theorem popUndoesPush : Obligations.PopUndoesPush := by
  intro s
  refine ⟨pop_empty, fun _ _ => pop_concat, fun _ _ _ => pop_of_push, fun i t h => ?_⟩
  cases (exec_eq i s).symm.trans h
  rcases complete_execute_stack Config.standard i s with kept | pushed
  · rw [kept]
  · rw [pushed]
    exact List.prefix_append ..

/-- A tick leaves the old stack at the bottom of the new one, with at most one entry above it. -/
theorem runningTick_stack_grows (cfg : Config) (s : State) :
    s.stack <+: (runningTick cfg s).stack ∧ (runningTick cfg s).stack.length ≤ s.stack.length + 1 := by
  rcases (tickEnd_runningTick cfg s).stack with ⟨-, -, pushed⟩ | kept
  · rw [pushed, List.length_append, List.length_singleton]
    exact ⟨List.prefix_append .., le_rfl⟩
  · rw [kept]
    exact ⟨List.prefix_rfl, Nat.le_succ _⟩

/-- Settles O54, by induction on the number of ticks: a halted core keeps its stack, and the prefixes and the counts
of a running core's ticks compose. -/
theorem theStackOnlyGrows : Obligations.TheStackOnlyGrows := by
  intro cfg n
  induction n with
  | zero => exact fun s => ⟨List.prefix_rfl, le_rfl⟩
  | succ n ih =>
    intro s
    cases status : s.status with
    | halted e =>
      rw [ticks_halted status]
      exact ⟨List.prefix_rfl, Nat.le_add_right ..⟩
    | running =>
      rw [ticks_succ_running status]
      obtain ⟨bottomFirst, lengthFirst⟩ := runningTick_stack_grows cfg s
      obtain ⟨bottomRest, lengthRest⟩ := ih (runningTick cfg s)
      exact ⟨bottomFirst.trans bottomRest, by omega⟩

end Sys2Proof.Machine

/-! PROOFS. What a tick raises and keeps, when the core answers, and that the core's run is its ticks
(spec/60_exceptions.md). -/

namespace Sys2Proof.Machine

/-! ### The timer and the halt (R85, R88) -/

/-- Settles O16: the CALL raises before it writes, and a raise writes the status only. -/
theorem callOnFullStackHalts : Obligations.CallOnFullStackHalts := fun nnn _ full => exec_call_full full nnn

theorem runningTick_dt_toNat (cfg : Config) (s : State) : (runningTick cfg s).dt.toNat = s.dt.toNat - 1 := by
  rw [runningTick_dt, decrementTimer_dt_toNat]

/-- Settles O24: a tick's timer is the lowered one however it ends, and `Run()` of a halted core does nothing. -/
theorem timerDropsOnceATick : Obligations.TimerDropsOnceATick := by
  intro s
  refine ⟨fun cfg legal running => ?_, fun running => ?_, fun e cfg samples halted => ?_⟩
  · exact ⟨_, tick_running legal running, runningTick_dt_toNat cfg s⟩
  · exact ⟨_, step_running running, runningTick_dt_toNat Config.standard s⟩
  · rw [run_halted halted]

/-- A step that stops started on a core halted with that error. -/
theorem step_fault {s : State} {e : FatalError} (h : step s = .fault (.halted e)) : s.status = .halted e := by
  cases status : s.status with
  | running => cases (step_running status).symm.trans h
  | halted e' =>
    cases (step_halted status).symm.trans h
    rfl

/-- Settles O27: both answers of a step, each with its converse. -/
theorem stepAnswersExactlyWhenRunning : Obligations.StepAnswersExactlyWhenRunning := fun _ =>
  ⟨⟨fun running => ⟨_, step_running running⟩, fun ⟨_, answered⟩ => (step_next answered).1⟩,
    fun _ => ⟨step_halted, step_fault⟩⟩

/-! ### The order of the checks (R84) -/

theorem fetchDecode_instr {cfg : Config} {s : State} {op : Word} {i : Instr} (fetched : fetch cfg s = .ok op)
    (decoded : decode cfg op = .instr i) : fetchDecode cfg s = .ok i := by
  simp only [fetchDecode, fetched, decoded]

theorem runningTick_of_call_full {cfg : Config} {s : State} {nnn : Imm12}
    (front : fetchDecode cfg s = .ok (.call nnn)) (full : s.stack.length = cfg.stackCap) :
    runningTick cfg s = raiseFatal .stackOverflow (decrementTimer s) := by
  rw [runningTick_of_ok front, execute, callBody_full (s := decrementTimer s) full, complete_raised]

/-- An executed instruction raises only where it is a CALL on a full stack. -/
theorem TickEnd.status_of_executed {cfg : Config} {s t : State} (h : TickEnd cfg s t) {i : Instr}
    (front : fetchDecode cfg s = .ok i) (room : ∀ nnn, i = .call nnn → s.stack.length ≠ cfg.stackCap) :
    t.status = s.status := by
  cases h with
  | cls | add | ldI | call => rfl
  | frontRaised raised => cases front.symm.trans raised
  | overflow called full =>
    cases front.symm.trans called
    exact absurd full (room _ rfl)

/-- Settles O28: each check that fails is the one raise of the tick, and a tick that passes all three keeps the
status. -/
theorem tickErrorsComeInOrder : Obligations.TickErrorsComeInOrder := by
  intro cfg s legal running
  refine ⟨_, tick_running legal running, fun out => ?_, fun inRange op word => ?_⟩
  · rw [runningTick_of_error (fetchDecode_outOfRange out), raiseFatal_status]
  · have fetched : fetch cfg s = .ok op := word ▸ fetch_inRange inRange
    refine ⟨fun invalid => ?_, fun nnn decoded full => ?_, fun i decoded room => ?_⟩
    · rw [runningTick_of_error (fetchDecode_invalid fetched invalid), raiseFatal_status]
    · rw [runningTick_of_call_full (fetchDecode_instr fetched decoded) full, raiseFatal_status]
    · rw [(tickEnd_runningTick cfg s).status_of_executed (fetchDecode_instr fetched decoded) room, running]

/-- Settles O29: a running core is halted by a raise only, which keeps the decrement and writes the status. -/
theorem raisingTickKeepsOnlyTheDecrement : Obligations.RaisingTickKeepsOnlyTheDecrement := by
  intro cfg s t e ticked halted
  obtain ⟨-, running, rfl⟩ := tick_next ticked
  obtain ⟨code, raised⟩ := (tickEnd_runningTick cfg s).raised running halted
  refine ⟨?_, code⟩
  rw [raised, decrementTimer_eq]
  rfl

/-! ### The core's run is its ticks (R79, R107) -/

/-- Ticks compose, a halted core staying as it is. -/
theorem ticks_add (cfg : Config) (n m : Nat) (s : State) : ticks cfg (n + m) s = ticks cfg m (ticks cfg n s) := by
  induction n generalizing s with
  | zero => rw [Nat.zero_add, ticks]
  | succ n ih =>
    cases status : s.status with
    | halted e => rw [ticks_halted status, ticks_halted status, ticks_halted status]
    | running => rw [Nat.succ_add, ticks_succ_running status, ticks_succ_running status, ih]

/-- A safe run starts on a running core. -/
theorem RunsSafely.running {cfg : Config} {n : Nat} {s : State} (safe : RunsSafely cfg n s) :
    s.status = .running := by
  cases status : s.status with
  | running => rfl
  | halted e =>
    rw [RunsSafely, ticks_halted status, status] at safe
    cases safe

theorem core_run_succ_running {s : State} (running : s.status = .running) (n : Nat) :
    core.run (n + 1) s = core.run n (runningTick Config.standard s) := by
  rw [core_run_succ, step_running running]

theorem core_run_succ_halted {s : State} {e : FatalError} (halted : s.status = .halted e) (n : Nat) :
    core.run (n + 1) s = .fault (.halted e) := by
  rw [core_run_succ, step_halted halted]

/-- After a safe run of `n` ticks the core's run goes on from the state they leave. -/
theorem core_run_add_of_runsSafely {n : Nat} {s : State} (safe : RunsSafely Config.standard n s) (m : Nat) :
    core.run (n + m) s = core.run m (ticks Config.standard n s) := by
  induction n generalizing s with
  | zero => rw [Nat.zero_add, ticks]
  | succ n ih =>
    have running := safe.running
    rw [RunsSafely, ticks_succ_running running] at safe
    rw [Nat.succ_add, core_run_succ_running running, ticks_succ_running running, ih safe]

/-- A step after the ticks that halted the core stops with its error. -/
theorem core_run_of_ticks_halted {k n : Nat} {s : State} {e : FatalError} (before : k < n)
    (halted : (ticks Config.standard k s).status = .halted e) : core.run n s = .fault (.halted e) := by
  induction k generalizing n s with
  | zero =>
    obtain ⟨m, rfl⟩ := Nat.exists_eq_add_one.2 before
    exact core_run_succ_halted halted m
  | succ k ih =>
    obtain ⟨m, rfl⟩ := Nat.exists_eq_add_one.2 (Nat.zero_lt_of_lt before)
    cases status : s.status with
    | halted e' =>
      rw [ticks_halted status] at halted
      exact core_run_succ_halted halted m
    | running =>
      rw [ticks_succ_running status] at halted
      rw [core_run_succ_running status, ih (Nat.lt_of_succ_lt_succ before) halted]

/-- Settles O57: the safe ticks come first, and one more step is one more tick; after a raise a step stops. -/
theorem coreRunIsTicks : Obligations.CoreRunIsTicks := by
  intro n s
  refine ⟨rfl, fun safe => ⟨core_run_add_of_runsSafely safe 0, ?_⟩, fun k e => core_run_of_ticks_halted⟩
  have running : (ticks Config.standard n s).status = .running := safe
  rw [core_run_add_of_runsSafely safe 1, core_run_succ_running running, ticks_add, ticks_succ_running running]
  rfl

end Sys2Proof.Machine

/-! PROOFS. Reset, load and launch, which host calls are answered, the run loop and whether a run ends
(spec/70_reset_and_hazards.md). -/

namespace Sys2Proof.Machine

/-! ### One tick, one step (R103, R110) -/

theorem tick_halted {cfg : Config} {s : State} {e : FatalError} (legal : cfg.Legal) (halted : s.status = .halted e) :
    tick cfg s = .fault (.halted e) := by
  simp only [tick, if_pos legal, halted]

/-- Settles O56: the two agree on a running and on a halted core, since the default binding is legal. -/
theorem stepIsTheDefaultTick : Obligations.StepIsTheDefaultTick := by
  intro s
  cases status : s.status with
  | running => rw [step_running status, tick_running standard_legal status]
  | halted e => rw [step_halted status, tick_halted standard_legal status]

/-- A step executes what the front end answers, on the state with the timer lowered. -/
theorem step_of_ok {s : State} {i : Instr} (running : s.status = .running)
    (front : fetchDecode Config.standard s = .ok i) : step s = exec i (decrementTimer s) := by
  rw [step_running running, runningTick_of_ok front, exec_eq]

/-- Settles O26: the bytes at the PC are the fetched word, and its instruction is what the front end answers. -/
theorem stepRunsTheDecodedInstruction : Obligations.StepRunsTheDecodedInstruction := by
  intro s i running inRange decoded
  rw [step_of_ok running (fetchDecode_instr (fetch_inRange inRange) decoded), decrementTimer_eq]

theorem runningTick_of_call_room {cfg : Config} {s : State} {nnn : Imm12}
    (front : fetchDecode cfg s = .ok (.call nnn)) (room : s.stack.length ≠ cfg.stackCap) :
    runningTick cfg s = { decrementTimer s with stack := s.stack ++ [s.pc], pc := zextImm nnn } := by
  rw [runningTick_of_ok front, execute, callBody_room (s := decrementTimer s) room, complete_stay]
  rfl

/-- Settles O31: the CALL leaves a running core with the target as its PC and the memory as it was. -/
theorem nextFetchAfterCallIsAtItsTarget : Obligations.NextFetchAfterCallIsAtItsTarget := by
  intro s nnn running front room inRange
  refine ⟨_, step_running running, ?_⟩
  rw [runningTick_of_call_room front room]
  refine ⟨running, ?_⟩
  rw [← zextImm_toNat nnn] at inRange ⊢
  exact fetch_inRange inRange

/-! ### A word stored at the PC (R98, R100) -/

theorem decode_of_decodeTableWord {w : Nat} {i : Instr} {nbits : Nat} (h : decodeTableWord nbits w = some i) :
    decode Config.standard (tableWord nbits w) = .instr i := by
  cases decoded : decode Config.standard (tableWord nbits w) with
  | instr j => simpa [decodeTableWord, bytesOfWord, decodeBytes, decoded] using h
  | invalid op => simp [decodeTableWord, bytesOfWord, decodeBytes, decoded] at h

@[simp] theorem withFetchWord_pc (s : State) (nbits w : Nat) : (s.withFetchWord nbits w).pc = s.pc := by
  unfold State.withFetchWord
  split <;> rfl

@[simp] theorem withFetchWord_status (s : State) (nbits w : Nat) : (s.withFetchWord nbits w).status = s.status := by
  unfold State.withFetchWord
  split <;> rfl

theorem withFetchWord_mem {s : State} (inRange : s.pc.toNat + 1 < Config.standard.memSize) (nbits w : Nat) :
    (s.withFetchWord nbits w).mem =
      Memory.writeBytes Config.standard s.mem s.pc.toNat (bytesOfWord (tableWord nbits w)) := by
  rw [State.withFetchWord, if_neg (Nat.not_le.2 inRange)]

theorem byteAt_withFetchWord {s : State} (wf : Memory.wf Config.standard s.mem)
    (inRange : s.pc.toNat + 1 < Config.standard.memSize) (nbits w : Nat) {k : Nat} (hk : k < 2) :
    (s.withFetchWord nbits w).byteAt Config.standard (s.pc.toNat + k) =
      (bytesOfWord (tableWord nbits w)).getD k 0x00#8 := by
  rw [State.byteAt, withFetchWord_mem inRange]
  exact Memory.read_writeBytes_inside _ _ wf.1 _ hk

/-- The two stored bytes read back, so the stored word is fetched (R34). -/
theorem fetch_withFetchWord {s : State} (wf : Memory.wf Config.standard s.mem)
    (inRange : s.pc.toNat + 1 < Config.standard.memSize) (nbits w : Nat) :
    fetch Config.standard (s.withFetchWord nbits w) = .ok (tableWord nbits w) := by
  have high : (s.withFetchWord nbits w).byteAt Config.standard s.pc.toNat = highByte (tableWord nbits w) :=
    byteAt_withFetchWord wf inRange nbits w Nat.two_pos
  have low : (s.withFetchWord nbits w).byteAt Config.standard (s.pc.toNat + 1) = lowByte (tableWord nbits w) :=
    byteAt_withFetchWord wf inRange nbits w Nat.one_lt_two
  rw [fetch_inRange (by rwa [withFetchWord_pc]), withFetchWord_pc, high, low, wordOfBytes_bytes]

/-- Settles O58: the stored word is fetched and decodes to the instruction, which the step executes. -/
theorem storedFetchWordRuns : Obligations.StoredFetchWordRuns := by
  intro s w i wf running inRange decoded
  have front : fetchDecode Config.standard (s.withFetchWord 16 w) = .ok i :=
    fetchDecode_instr (fetch_withFetchWord wf inRange 16 w) (decode_of_decodeTableWord decoded)
  exact step_of_ok ((withFetchWord_status s 16 w).trans running) front

/-! ### Host calls (R96, R97, R101) -/

theorem reset_of_notExecuting {cfg : Config} {c : CoreInstance} (legal : cfg.Legal)
    (notExecuting : c.runExecuting = false) : c.reset cfg = .next (.idle (State.resetWith cfg)) := by
  simp [CoreInstance.reset, notExecuting, legal]

/-- Settles O33: either Reset gives the one reset state, and the font lies below the program region. -/
theorem resetForgetsThePast : Obligations.ResetForgetsThePast := by
  intro cfg c d legal cIdle dIdle
  rw [reset_of_notExecuting legal cIdle, reset_of_notExecuting legal dIdle]
  exact ⟨rfl, _, rfl, rfl, rfl, fun a inProgram =>
    resetByte_outside (.inr ((fontBelowProgram_of_legal legal).trans inProgram))⟩

theorem withIdle_idle_illegal {α : Type} {cfg : Config} (illegal : ¬ cfg.Legal)
    (f : State → Host.Outcome α Fault Refusal) (s : State) :
    (CoreInstance.idle s).withIdle cfg f = .refused .illegalConfig := if_neg illegal

theorem reset_illegal {cfg : Config} {c : CoreInstance} (illegal : ¬ cfg.Legal)
    (notExecuting : c.runExecuting = false) : c.reset cfg = .refused .illegalConfig := by
  simp [CoreInstance.reset, notExecuting, illegal]

/-- Settles O34: every call but Reset goes through `withIdle`, which makes both refusals. -/
theorem nothingRunsUnresetOrIllegal : Obligations.NothingRunsUnresetOrIllegal := by
  intro cfg bytes samples a s
  refine ⟨rfl, rfl, rfl, rfl, rfl, fun illegal => ?_⟩
  have refused {α : Type} (f : State → Host.Outcome α Fault Refusal) := withIdle_idle_illegal illegal f s
  exact ⟨refused _, refused _, refused _, refused _, refused _, reset_illegal illegal rfl, reset_illegal illegal rfl⟩

/-- Settles O35: only `inRun` executes, and there every call is refused before the configuration is looked at. -/
theorem hostCallsWaitForRunToReturn : Obligations.HostCallsWaitForRunToReturn := by
  intro cfg bytes samples p a c executing
  cases c with
  | neverReset | idle => cases executing
  | inRun s => exact ⟨rfl, rfl, rfl, rfl, rfl, rfl, rfl⟩

theorem coreInstanceRun_idle {cfg : Config} (legal : cfg.Legal) (samples : List Nat) (s : State) :
    (CoreInstance.idle s).run cfg samples = .next (runReached (run cfg samples s).state) :=
  withIdle_idle legal _ s

/-- Settles O36: on whether the samples so far have halted the core; one more sample continues the same run. -/
theorem runExecutesUntilItReturnsAnError : Obligations.RunExecutesUntilItReturnsAnError := by
  intro cfg samples now s legal
  refine ⟨_, coreInstanceRun_idle legal samples s, ?_⟩
  rw [coreInstanceRun_idle legal, run_append]
  rcases runReached_cases (run cfg samples s).state with ⟨e, halted, returned⟩ | ⟨running, executing⟩
  · rw [run_halted halted, returned]
    simp [CoreInstance.runExecuting, halted]
  · rw [executing]
    simp [CoreInstance.runExecuting, CoreInstance.poll]

/-! ### LoadProgram and the canonical launch (R98 to R100) -/

theorem loadProgram_fits {cfg : Config} {bytes : List Byte} (fits : cfg.progBase.toNat + bytes.length ≤ cfg.memSize)
    (s : State) : loadProgram cfg bytes s =
      ⟨{ s with mem := Memory.writeBytes cfg s.mem cfg.progBase.toNat bytes }, none⟩ := if_neg (Nat.not_lt.2 fits)

theorem loadProgram_refused {cfg : Config} {bytes : List Byte}
    (tooLong : cfg.memSize < cfg.progBase.toNat + bytes.length) (s : State) :
    loadProgram cfg bytes s = ⟨s, some (.loadOutOfRange bytes.length)⟩ := if_pos tooLong

theorem byteAt_loadProgram_inside {cfg : Config} {bytes : List Byte}
    (fits : cfg.progBase.toNat + bytes.length ≤ cfg.memSize) {s : State} (wf : Memory.wf cfg s.mem) {k : Nat}
    (hk : k < bytes.length) :
    (loadProgram cfg bytes s).state.byteAt cfg (cfg.progBase.toNat + k) = bytes.getD k 0x00#8 := by
  rw [loadProgram_fits fits]
  exact Memory.read_writeBytes_inside cfg bytes wf.1 _ hk

theorem byteAt_loadProgram_outside (cfg : Config) (bytes : List Byte) (s : State) {a : Nat}
    (outside : a < cfg.progBase.toNat ∨ cfg.progBase.toNat + bytes.length ≤ a) :
    (loadProgram cfg bytes s).state.byteAt cfg a = s.byteAt cfg a := by
  rcases loadProgram_cases cfg bytes s with ⟨-, h⟩ | ⟨-, h⟩ <;> rw [h]
  exact Memory.read_writeBytes_outside cfg bytes s.mem _ outside

/-- LoadProgram writes memory only (R99). -/
theorem loadProgram_eq_withMem (cfg : Config) (bytes : List Byte) (s : State) :
    (loadProgram cfg bytes s).state = { s with mem := (loadProgram cfg bytes s).state.mem } := by
  rcases loadProgram_cases cfg bytes s with ⟨-, h⟩ | ⟨-, h⟩ <;> rw [h]

/-- Settles O38: the two branches of LoadProgram. -/
theorem loadProgramCopiesOrRefuses : Obligations.LoadProgramCopiesOrRefuses := by
  intro cfg bytes s wf
  refine ⟨fun fits => ⟨?_, fun k => byteAt_loadProgram_inside fits wf⟩, fun tooLong => loadProgram_refused tooLong s⟩
  rw [loadProgram_fits fits]

/-- Settles O39: a load writes its own bytes only, keeps memory canonical for the next, and lies above the font. -/
theorem loadProgramChangesOnlyItsBytes : Obligations.LoadProgramChangesOnlyItsBytes := by
  intro cfg bytes s legal wf
  obtain ⟨-, -, fontBelow, ⟨programInMemory, -⟩, -⟩ := legal
  refine ⟨loadProgram_eq_withMem cfg bytes s, fun a => byteAt_loadProgram_outside cfg bytes s, ?_,
    fun first k fits => byteAt_loadProgram_inside fits (loadProgram_mem_wf first wf),
    fontHeld_loadProgram fontBelow bytes⟩
  exact loadProgram_fits (bytes := []) (Nat.le_of_add_right_le programInMemory) s

/-- Loads go through exactly when every one fits (R82, log entry 8). -/
theorem exists_loadAll_iff {cfg : Config} {loads : List (List Byte)} {s : State} :
    (∃ t, loadAll cfg loads s = some t) ↔ ∀ bytes ∈ loads, cfg.progBase.toNat + bytes.length ≤ cfg.memSize := by
  induction loads generalizing s with
  | nil => simp [loadAll]
  | cons bytes rest ih =>
    rw [List.forall_mem_cons, ← ih (s := (loadProgram cfg bytes s).state)]
    constructor
    · rintro ⟨t, loaded⟩
      obtain ⟨fits, loadedRest⟩ := loadAll_cons loaded
      exact ⟨fits, t, loadedRest⟩
    · rintro ⟨fits, t, loadedRest⟩
      have accepted : (loadProgram cfg bytes s).error = none := by rw [loadProgram_fits fits]
      exact ⟨t, by simp only [loadAll, accepted, loadedRest]⟩

/-- What one load keeps, a launch's loads keep. -/
theorem loadAll_keeps {cfg : Config} {P : State → Prop}
    (keep : ∀ bytes s, P s → P (loadProgram cfg bytes s).state) {loads : List (List Byte)} {s t : State}
    (loaded : loadAll cfg loads s = some t) (hs : P s) : P t := by
  induction loads generalizing s with
  | nil => exact Option.some.inj loaded ▸ hs
  | cons bytes rest ih => exact ih (loadAll_cons loaded).2 (keep bytes s hs)

/-- What R100 says of the state a launch gives. -/
def State.AtLaunch (cfg : Config) (s : State) : Prop :=
  s.pc = cfg.progBase ∧ s.status = .running ∧ s.stack = [] ∧ s.Canonical cfg

theorem atLaunch_resetWith (cfg : Config) : (State.resetWith cfg).AtLaunch cfg :=
  ⟨rfl, rfl, rfl, canonical_resetWith cfg⟩

theorem atLaunch_loadProgram {cfg : Config} (below : cfg.FontBelowProgram) (bytes : List Byte) {s : State}
    (atLaunch : s.AtLaunch cfg) : (loadProgram cfg bytes s).state.AtLaunch cfg := by
  obtain ⟨pc, running, stack, canonical⟩ := atLaunch
  have canonicalAfter := canonical_loadProgram below bytes canonical
  rw [loadProgram_eq_withMem] at canonicalAfter ⊢
  exact ⟨pc, running, stack, canonicalAfter⟩

/-- Settles O37: Reset sets what the statement says of the launch, and every load keeps it. -/
theorem launchStartsAtTheProgramBase : Obligations.LaunchStartsAtTheProgramBase := by
  intro cfg loads legal
  have keep (bytes : List Byte) (s : State) := atLaunch_loadProgram (fontBelowProgram_of_legal legal) bytes (s := s)
  exact ⟨exists_loadAll_iff, fun t launched => loadAll_keeps keep launched (atLaunch_resetWith cfg)⟩

/-! ### Ticks (R107) -/

/-- Settles O25, by induction on the number of ticks, each of which lowers the timer by one. -/
theorem nTicksDropTheTimerNTimes : Obligations.NTicksDropTheTimerNTimes := by
  intro cfg n
  induction n with
  | zero => exact fun s _ => rfl
  | succ n ih =>
    intro s safe
    have running := safe.running
    rw [RunsSafely, ticks_succ_running running] at safe
    rw [ticks_succ_running running, ih _ safe, runningTick_dt_toNat]
    omega

/-- Ticks do not read the run loop's timestamp (R22). -/
theorem ticks_stamp (cfg : Config) (n : Nat) (l : LastTick) (s : State) :
    ticks cfg n (s.stamp l) = (ticks cfg n s).stamp l := by
  induction n generalizing s with
  | zero => rfl
  | succ n ih =>
    cases status : s.status with
    | halted e => rw [ticks_halted status, ticks_halted (s := s.stamp l) status]
    | running =>
      rw [ticks_succ_running status, ticks_succ_running (s := s.stamp l) status, runningTick_stamp, ih]

/-- Ticks do not write the run loop's timestamp (R103). -/
theorem ticks_lastTick (cfg : Config) (n : Nat) (s : State) : (ticks cfg n s).lastTick = s.lastTick := by
  calc (ticks cfg n s).lastTick
    _ = (ticks cfg n (s.stamp s.lastTick)).lastTick := by rw [stamp_self]
    _ = s.lastTick := by rw [ticks_stamp, stamp_lastTick]

/-! ### The run loop (R106, R107) -/

theorem tickDue_of_never {cfg : Config} {s : State} (never : s.lastTick = .never) (now : Nat) :
    s.tickDue cfg now = true := by
  simp only [State.tickDue, never]

theorem tickDue_of_sampled {cfg : Config} {s : State} {last : Nat} (sampled : s.lastTick = .sampled last) (now : Nat) :
    s.tickDue cfg now = decide (last + cfg.tickPeriod ≤ now) := by
  simp only [State.tickDue, sampled]

section
variable {cfg : Config} {now : Nat} {s : State}

theorem run_cons_due (running : s.status = .running) (due : s.tickDue cfg now = true) (rest : List Nat) :
    run cfg (now :: rest) s = run cfg rest ((runningTick cfg s).stamp (.sampled now)) := by
  rw [run_cons_running running, pollOnce, if_pos due, runningTick_stamp]

theorem run_cons_notDue (running : s.status = .running) (notDue : s.tickDue cfg now = false) (rest : List Nat) :
    run cfg (now :: rest) s = run cfg rest s := by
  rw [run_cons_running running, pollOnce, notDue, if_neg Bool.false_ne_true]

end

/-- Settles O41: the timestamp says whether a tick is due, and what the loop does is known either way. -/
theorem runTicksExactlyWhenDue : Obligations.RunTicksExactlyWhenDue := by
  intro cfg now rest s
  simp only [runningTick_stamp]
  refine ⟨fun running never => run_cons_due running (tickDue_of_never never now) rest,
    fun last running sampled passed => run_cons_due running ?_ rest,
    fun last running sampled early => run_cons_notDue running ?_ rest,
    fun e halted => run_halted halted _⟩
  · rw [tickDue_of_sampled sampled, decide_eq_true_iff]
    omega
  · rw [tickDue_of_sampled sampled, decide_eq_false_iff_not]
    omega

/-- A run has ticked at most once a sample, and differs from these ticks in the timestamp only. -/
theorem run_state_eq_ticks (cfg : Config) (samples : List Nat) (s : State) :
    ∃ k l, k ≤ samples.length ∧ (run cfg samples s).state = (ticks cfg k s).stamp l := by
  induction samples generalizing s with
  | nil => exact ⟨0, s.lastTick, le_rfl, rfl⟩
  | cons now rest ih =>
    cases status : s.status with
    | halted e => exact ⟨0, s.lastTick, Nat.zero_le _, by rw [run_halted status]; rfl⟩
    | running =>
      cases due : s.tickDue cfg now with
      | true =>
        obtain ⟨k, l, bound, reached⟩ := ih ((runningTick cfg s).stamp (.sampled now))
        refine ⟨k + 1, l, Nat.succ_le_succ bound, ?_⟩
        rw [run_cons_due status due, reached, ticks_stamp, stamp_stamp, ticks_succ_running status]
      | false =>
        obtain ⟨k, l, bound, reached⟩ := ih s
        exact ⟨k, l, Nat.le_succ_of_le bound, by rw [run_cons_notDue status due, reached]⟩

/-- A run is as many ticks as samples when each sample is due at its turn: all of them at the start, and each a period
after the one before it. -/
theorem run_state_eq_ticks_of_due {cfg : Config} {samples : List Nat} {s : State}
    (due : ∀ now ∈ samples, s.tickDue cfg now = true) (apart : samples.Pairwise fun a b => a + cfg.tickPeriod ≤ b) :
    ∃ l, (run cfg samples s).state = (ticks cfg samples.length s).stamp l := by
  induction samples generalizing s with
  | nil => exact ⟨s.lastTick, rfl⟩
  | cons now rest ih =>
    cases status : s.status with
    | halted e => exact ⟨s.lastTick, by rw [run_halted status, ticks_halted status, stamp_self]⟩
    | running =>
      obtain ⟨afterNow, apart⟩ := List.pairwise_cons.1 apart
      have dueAfter : ∀ b ∈ rest, ((runningTick cfg s).stamp (.sampled now)).tickDue cfg b = true := by
        intro b hb
        rw [tickDue_of_sampled rfl, decide_eq_true (afterNow b hb)]
      obtain ⟨l, reached⟩ := ih dueAfter apart
      refine ⟨l, ?_⟩
      rw [run_cons_due status (due now List.mem_cons_self), reached, ticks_stamp, stamp_stamp, List.length_cons,
        ticks_succ_running status]

/-- Giving ticks another timestamp and their own back leaves the ticks. -/
theorem ticks_stamp_back (cfg : Config) (n : Nat) (l : LastTick) (s : State) :
    ((ticks cfg n s).stamp l).stamp s.lastTick = ticks cfg n s := by
  rw [stamp_stamp, ← ticks_lastTick cfg n s, stamp_self]

/-- Settles O42: the error is that of the state, which the timestamp does not touch. -/
theorem runIsASequenceOfTicks : Obligations.RunIsASequenceOfTicks := by
  intro cfg samples s
  obtain ⟨k, l, bound, reached⟩ := run_state_eq_ticks cfg samples s
  refine ⟨k, bound, ?_, ?_⟩
  · rw [reached, ticks_stamp_back]
  · rw [run_error, reached]
    rfl

/-- Settles O43: a core that never ticked is due at every sample. -/
theorem samplesAPeriodApartTickOnceEach : Obligations.SamplesAPeriodApartTickOnceEach := by
  intro cfg samples s never apart
  obtain ⟨l, reached⟩ := run_state_eq_ticks_of_due (fun now _ => tickDue_of_never never now) apart
  rw [reached, ticks_stamp_back]

/-! ### Whether a run ends (R71, R108) -/

/-- A bound on the ticks still to come before the one that raises: for each CALL the stack has room for, a pass through
memory and the CALL, and the rest of the present pass. -/
def ticksLeft (cfg : Config) (s : State) : Nat :=
  (cfg.stackCap - s.stack.length) * (cfg.memSize / 2 + 1) + (cfg.memSize - s.pc.toNat) / 2

theorem ticksLeft_lt (cfg : Config) (s : State) : ticksLeft cfg s < (cfg.stackCap + 1) * (cfg.memSize / 2 + 2) := by
  have room : (cfg.stackCap - s.stack.length) * (cfg.memSize / 2 + 1) ≤ cfg.stackCap * (cfg.memSize / 2 + 2) :=
    Nat.mul_le_mul (Nat.sub_le ..) (Nat.le_succ _)
  rw [ticksLeft, Nat.succ_mul]
  omega

/-- An advance uses up one tick of the present pass: the fetch bound keeps `PC + 2` from wrapping (R16, D12). -/
theorem ticksLeft_of_advance {cfg : Config} {s t : State} (small : cfg.memSize ≤ 65535)
    (inRange : s.pc.toNat + 1 < cfg.memSize) (stack : t.stack = s.stack) (pc : t.pc = s.pc + 2#16) :
    ticksLeft cfg t < ticksLeft cfg s := by
  have noWrap : t.pc.toNat = s.pc.toNat + 2 := by
    rw [pc]
    exact incrementPc_pc_toNat (by omega)
  rw [ticksLeft, ticksLeft, stack, noWrap]
  omega

/-- A CALL uses up an entry of the stack, which is worth a whole pass. -/
theorem ticksLeft_of_push {cfg : Config} {s t : State} {w : Word} (room : s.stack.length < cfg.stackCap)
    (stack : t.stack = s.stack ++ [w]) : ticksLeft cfg t < ticksLeft cfg s := by
  obtain ⟨r, before⟩ := Nat.exists_eq_add_one.2 (Nat.sub_pos_of_lt room)
  have after : cfg.stackCap - t.stack.length = r := by
    rw [stack, List.length_append, List.length_singleton]
    omega
  rw [ticksLeft, ticksLeft, before, after, Nat.succ_mul]
  omega

/-- A tick halts the core, or leaves it running with fewer ticks to come. -/
theorem runningTick_halts_or_ticksLeft_lt {cfg : Config} {s : State} (small : cfg.memSize ≤ 65535)
    (running : s.status = .running) (fits : s.stack.length ≤ cfg.stackCap) :
    (∃ e, (runningTick cfg s).status = .halted e) ∨
    ((runningTick cfg s).status = .running ∧ (runningTick cfg s).stack.length ≤ cfg.stackCap ∧
      ticksLeft cfg (runningTick cfg s) < ticksLeft cfg s) := by
  generalize tEq : runningTick cfg s = t
  have ends : TickEnd cfg s t := tEq ▸ tickEnd_runningTick cfg s
  cases ends with
  | frontRaised | overflow => exact .inl ⟨_, rfl⟩
  | cls front | add front | ldI front =>
    exact .inr ⟨running, fits, ticksLeft_of_advance small (fetchDecode_ok_inRange front) rfl rfl⟩
  | call front room =>
    have roomLeft : s.stack.length < cfg.stackCap := lt_of_le_of_ne fits room
    refine .inr ⟨running, ?_, ticksLeft_of_push roomLeft rfl⟩
    rw [List.length_append, List.length_singleton]
    exact roomLeft

/-- As many ticks as are left, and one more, halt the core, with an error a tick can raise. -/
theorem ticks_halt_of_ticksLeft_lt {cfg : Config} (small : cfg.memSize ≤ 65535) {n : Nat} {s : State}
    (running : s.status = .running) (fits : s.stack.length ≤ cfg.stackCap) (enough : ticksLeft cfg s < n) :
    ∃ e, (ticks cfg n s).status = .halted e ∧ (e.code = 1 ∨ e.code = 3 ∨ e.code = 4) := by
  induction n generalizing s with
  | zero => exact absurd enough (Nat.not_lt_zero _)
  | succ n ih =>
    rw [ticks_succ_running running]
    rcases runningTick_halts_or_ticksLeft_lt small running fits with ⟨e, halted⟩ | ⟨running', fits', fewer⟩
    · rw [ticks_halted halted]
      exact ⟨e, halted, ((tickEnd_runningTick cfg s).raised running halted).1⟩
    · exact ih running' fits' (by omega)

/-- Settles O44: the stated number of ticks exceeds the ticks left from any state. -/
theorem everyRunEnds : Obligations.EveryRunEnds := by
  intro cfg s _ small running fits
  obtain ⟨e, halted, code⟩ := ticks_halt_of_ticksLeft_lt small running fits (ticksLeft_lt cfg s)
  exact ⟨_, e, le_rfl, halted, code⟩

/-- Settles O45, by induction on the number of ticks: a tick executes CLS, keeps the memory and leaves the PC even. -/
theorem clsEverywhereRunsForever : Obligations.ClsEverywhereRunsForever := by
  intro cfg s _ running even clsEverywhere n
  induction n generalizing s with
  | zero => exact ⟨running, (Nat.mod_eq_of_lt s.pc.isLt).symm⟩
  | succ n ih =>
    have ticked : runningTick cfg s = incrementPc (displayClear (decrementTimer s)) :=
      runningTick_of_ok (clsEverywhere s.pc even)
    have pc : (runningTick cfg s).pc.toNat = (s.pc.toNat + 2) % 65536 := by
      rw [ticked]
      exact BitVec.toNat_add ..
    have clsAfter (w : Word) (hw : w.toNat % 2 = 0) : fetchDecode cfg { runningTick cfg s with pc := w } = .ok .cls :=
      (fetchDecode_congr (s := { runningTick cfg s with pc := w }) (t := { s with pc := w }) rfl
        (runningTick_mem cfg s).1).trans (clsEverywhere w hw)
    obtain ⟨safe, pcAfter⟩ := ih (runningTick cfg s) (ticked ▸ running) (by omega) clsAfter
    rw [RunsSafely, ticks_succ_running running]
    exact ⟨safe, by omega⟩

end Sys2Proof.Machine

/-! PROOFS. The encoder's words and the vectors' words under the decoder (spec/30_encoding.md, spec/95_test_vectors.md
section 2.1). -/

namespace Sys2Proof

/-- Settles O4, by `decode_encode`: a case per instruction, which the distinct selectors of R4 lead to its own arm. -/
theorem decodeOfEncodeIsTheInstruction : Obligations.DecodeOfEncodeIsTheInstruction :=
  fun _ i legal => decode_encode legal i

/-- Settles O1: each word's selectors lead to one arm of the decoder (R50), and the words with no row to the two
`INVALID(op)` arms. -/
theorem writtenOutWordsDecode : Obligations.WrittenOutWordsDecode := by
  refine ⟨?cls, ?clsIgnoringY, ?addXY, ?addCarryRegister, ?ldI, ?call, ?unknownSub, ?unknownFamily⟩
  case cls | clsIgnoringY => exact decode_cls rfl (by decide) rfl
  case addXY | addCarryRegister => exact decode_add rfl rfl
  case ldI => exact decode_ldI (by decide) rfl
  case call => exact decode_call (by decide) (by decide) rfl
  case unknownSub => exact decode_unknownSub rfl (by decide) (by decide)
  case unknownFamily => exact decode_unknownFamily (by decide) (by decide) (by decide)

end Sys2Proof
